-- ==== Sys2Proof/Word.lean ====
section
/-! DEFINITION. The words of the machine: bytes, 64-bit blocks, and the bit slice of an integer. -/

namespace Sys2Proof

/-- One byte: a character of a text (R43) or a byte of a record buffer (R9, R42). -/
abbrev Byte := BitVec 8

/-- A block of the block space: an exact-width unsigned integer of BLOCK_W = 64 bits (R6, R41). -/
abbrev Block := BitVec 64

/-- The pattern on a signed numeric value port, VW = 64 bits (R6, R25). -/
abbrev Signed64 := BitVec 64

/-- `v[hi:lo]` of R7: the unsigned integer made of bits `lo` to `hi` of `v`, both ends included. -/
def bits (v hi lo : Nat) : Nat := v / 2 ^ lo % 2 ^ (hi - lo + 1)

end Sys2Proof
end

