-- ==== Sys2Proof/Syntax.lean ====
section
/-! DEFINITION. The operations: a request as it is presented (the select code and the ports), and the sum
type of the six operations with the operands each one takes (R70). -/

namespace Sys2Proof

/-- An input that can be missing: a value port with its present bit beside it (R26). -/
structure Port (α : Type) where
  present : Bool
  value : α
deriving DecidableEq, Repr

/-- One value for each of the seven appearance attributes of a face code, in layout order (R81, R130). -/
structure AppAttrs (α : Type) where
  hair : α
  beard : α
  skin : α
  hairTexture : α
  hairColor : α
  age : α
  skinColor : α
deriving DecidableEq, Repr

/-- The overrides of CR.WRITE (R24, R170). The length port `nlen` is the length of `name.value`. -/
structure Overrides where
  name : Port (List Byte)
  sex : Port Signed64
  banner : Port Signed64
  hairstyle : Port Signed64
  skin : Port Signed64
  age : Port Signed64
  hairColor : Port Signed64
  appearance : Port (Vector Byte 11)
deriving DecidableEq, Repr

/-- The six operations, one constructor per row of spec/opcode_table.json, each with the operand ports of
R24. A byte sequence carries its own length, which is what the length ports `tlen`, `LEN` and `nlen` say. -/
inductive Instr where
  /-- BF.EXTRACT, op = 000 (R110). -/
  | bfExtract (block : Block) (off : BitVec 6) (wid : BitVec 7)
  /-- BF.PACK, op = 001 (R111). -/
  | bfPack (off : BitVec 6) (wid : BitVec 7) (value : Signed64)
  /-- FC.PARSE, op = 010 (R130). -/
  | fcParse (text : List Byte)
  /-- FC.GENERATE, op = 011 (R135). -/
  | fcGenerate (morph : Vector (Port Signed64) 43) (app : AppAttrs (Port Signed64))
  /-- CR.READ, op = 100 (R160). -/
  | crRead (buf : List Byte)
  /-- CR.WRITE, op = 101 (R170). -/
  | crWrite (template : List Byte) (overrides : Overrides)
deriving DecidableEq, Repr

/-- The ports of BF.EXTRACT (R24). -/
structure ExtractPorts where
  block : Block
  off : BitVec 6
  wid : BitVec 7
deriving DecidableEq, Repr

/-- The ports of BF.PACK (R24). -/
structure PackPorts where
  off : BitVec 6
  wid : BitVec 7
  value : Signed64
deriving DecidableEq, Repr

/-- The ports of FC.PARSE (R24). -/
structure ParsePorts where
  tlen : Nat
  text : List Byte
deriving DecidableEq, Repr

/-- The ports of FC.GENERATE (R24). -/
structure GeneratePorts where
  morph : Vector (Port Signed64) 43
  app : AppAttrs (Port Signed64)
deriving DecidableEq, Repr

/-- The ports of CR.READ (R24); `len` is the port LEN. -/
structure ReadPorts where
  len : Nat
  buf : List Byte
deriving DecidableEq, Repr

/-- The ports of CR.WRITE (R24); `len` is the port LEN. -/
structure WritePorts where
  len : Nat
  template : List Byte
  namePresent : Bool
  nlen : BitVec 8
  name : List Byte
  sex : Port Signed64
  banner : Port Signed64
  hairstyle : Port Signed64
  skin : Port Signed64
  age : Port Signed64
  hairColor : Port Signed64
  appearance : Port (Vector Byte 11)
deriving DecidableEq, Repr

/-- One request, format CMD (R70): the 3-bit select and the operand ports. The record has a place for the
ports of every operation; the request consists of `op` and of the ports of the operation `op` selects, and
what stands in the other places is nothing the core sees. DESIGN CHOICE (assumption log 37): R70 and R23
give no layout of the ports. Safe: no bit of the request is read that the select does not name. -/
structure Request where
  op : BitVec 3
  extract : ExtractPorts
  pack : PackPorts
  parse : ParsePorts
  generate : GeneratePorts
  read : ReadPorts
  write : WritePorts
deriving DecidableEq, Repr

end Sys2Proof
end

