-- ==== Sys2Proof/WellFormed.lean ====
section
/-! DEFINITION. Which operations the ports can present. Every port but one has its width in its type; the
name of CR.WRITE is `bytes(nlen)` with `nlen` an 8-bit port (R24, NAME_MAX of R6). -/

namespace Sys2Proof

/-- The name bytes fit the length port `nlen : u8`: NAME_MAX is 255 (R6, R24, D22). -/
def nameFits (name : List Byte) : Bool := name.length ≤ 255

/-- The operation can be presented on the ports of R24. -/
def WellFormed : Instr → Bool
  | .bfExtract _ _ _ => true
  | .bfPack _ _ _ => true
  | .fcParse _ => true
  | .fcGenerate _ _ => true
  | .crRead _ => true
  | .crWrite _ ov => nameFits ov.name.value

end Sys2Proof
end

