-- ==== Sys2Proof/Decode.lean ====
section
/-! DEFINITION. From a request to the operation it names (R70, R71), and back. -/

namespace Sys2Proof

/-- Why a request names no operation. -/
inductive DecodeError where
  /-- The select code is 110 or 111 (R72). -/
  | reservedSelect (op : BitVec 3)
  /-- A length port disagrees with the bytes beside it: R24 types `text : bytes(tlen)`, `buf : bytes(LEN)`,
  `template : bytes(LEN)` and `name : bytes(nlen)`, so typed ports cannot present it (R210, U4). -/
  | unpresentable
deriving DecidableEq, Repr

/-- The overrides that the ports of CR.WRITE carry. -/
def overridesOf (w : WritePorts) : Overrides where
  name := ⟨w.namePresent, w.name⟩
  sex := w.sex
  banner := w.banner
  hairstyle := w.hairstyle
  skin := w.skin
  age := w.age
  hairColor := w.hairColor
  appearance := w.appearance

/-- The operation a request names: the select codes of R71, with the ports of R24. -/
def decode (q : Request) : Except DecodeError Instr :=
  match q.op with
  | 0b000#3 => .ok (.bfExtract q.extract.block q.extract.off q.extract.wid)
  | 0b001#3 => .ok (.bfPack q.pack.off q.pack.wid q.pack.value)
  | 0b010#3 => if q.parse.text.length = q.parse.tlen then .ok (.fcParse q.parse.text) else .error .unpresentable
  | 0b011#3 => .ok (.fcGenerate q.generate.morph q.generate.app)
  | 0b100#3 => if q.read.buf.length = q.read.len then .ok (.crRead q.read.buf) else .error .unpresentable
  | 0b101#3 =>
    if q.write.template.length = q.write.len ∧ q.write.name.length = q.write.nlen.toNat then
      .ok (.crWrite q.write.template (overridesOf q.write))
    else .error .unpresentable
  | op => .error (.reservedSelect op)

/-- An absent signed input, its value port at 0. -/
def noValue : Port Signed64 := ⟨false, 0⟩

/-- A request with the select `op` and every port at 0, empty or absent. -/
def blankRequest (op : BitVec 3) : Request where
  op := op
  extract := ⟨0, 0, 0⟩
  pack := ⟨0, 0, 0⟩
  parse := ⟨0, []⟩
  generate := ⟨⟨⟨List.replicate 43 noValue⟩, by simp⟩, ⟨noValue, noValue, noValue, noValue, noValue, noValue, noValue⟩⟩
  read := ⟨0, []⟩
  write := ⟨0, [], false, 0, [], noValue, noValue, noValue, noValue, noValue, noValue,
    ⟨false, ⟨⟨List.replicate 11 0⟩, by simp⟩⟩⟩

/-- The ports of CR.WRITE that carry a template and overrides. -/
def writePortsOf (template : List Byte) (ov : Overrides) : WritePorts where
  len := template.length
  template := template
  namePresent := ov.name.present
  nlen := BitVec.ofNat 8 ov.name.value.length
  name := ov.name.value
  sex := ov.sex
  banner := ov.banner
  hairstyle := ov.hairstyle
  skin := ov.skin
  age := ov.age
  hairColor := ov.hairColor
  appearance := ov.appearance

/-- The select code of an operation (R71). -/
def selectCode : Instr → BitVec 3
  | .bfExtract _ _ _ => 0b000#3
  | .bfPack _ _ _ => 0b001#3
  | .fcParse _ => 0b010#3
  | .fcGenerate _ _ => 0b011#3
  | .crRead _ => 0b100#3
  | .crWrite _ _ => 0b101#3

/-- The request that names an operation: its select code, its operands on its own ports, every other
operation's ports at 0. -/
def encode (i : Instr) : Request :=
  let q := blankRequest (selectCode i)
  match i with
  | .bfExtract block off wid => { q with extract := ⟨block, off, wid⟩ }
  | .bfPack off wid value => { q with pack := ⟨off, wid, value⟩ }
  | .fcParse text => { q with parse := ⟨text.length, text⟩ }
  | .fcGenerate morph app => { q with generate := ⟨morph, app⟩ }
  | .crRead buf => { q with read := ⟨buf.length, buf⟩ }
  | .crWrite template ov => { q with write := writePortsOf template ov }

/-- The request whose encoding is the word `w` of `nbits` bits, numbered as spec/opcode_table.json numbers
them: the table gives a row the three bits `op[2:0]` and nothing else (every operand is a port, R70), so the
ports stand at 0. -/
def requestOfTableWord (nbits w : Nat) : Request := blankRequest (BitVec.ofNat 3 (w % 2 ^ nbits))

/-- The operation that `decode` reads from a word of the opcode table; none where it refuses. -/
def decodeTableWord (nbits w : Nat) : Option Instr :=
  match decode (requestOfTableWord nbits w) with
  | .ok i => some i
  | .error _ => none

end Sys2Proof
end

