-- ==== Sys2Proof/Machine/State.lean ====
section
/-! DEFINITION. The state of the machine and what a response holds. The core itself has no state that
outlives an operation (R20, R21, R22, R28, R29, R31), so the state is the transaction: the requests the host
has issued and the core has not answered, and the responses delivered. -/

namespace Sys2Proof.Machine

/-- The three causes of a FormatError (R200, R201). -/
inductive ErrorKind where
  | badLength
  | badCharset
  | shortBuffer
deriving DecidableEq, Repr

/-- The results of FC.PARSE (R24, R134): 43 morph values on 3-bit ports, seven attributes on 6-bit ports,
and the reserved block B3 as found. -/
structure FaceCode where
  morph : Vector (BitVec 3) 43
  app : AppAttrs (BitVec 6)
  b3 : Block
deriving DecidableEq, Repr

/-- The results of CR.READ (R24, R160). -/
structure CharacterRecord where
  nameLength : BitVec 8
  nlen : Nat
  name : List Byte
  sex : BitVec 8
  banner : BitVec 32
  hairstyle : BitVec 8
  skin : BitVec 8
  hairColor : BitVec 6
  age : BitVec 6
  appearance : Vector Byte 11
  raw : List Byte
deriving DecidableEq, Repr

/-- The result ports of each operation (R24). -/
inductive Results where
  | bfExtract (value : Block)
  | bfPack (contrib : BitVec 128)
  | fcParse (face : FaceCode)
  | fcGenerate (text : List Byte)
  | crRead (record : CharacterRecord)
  | crWrite (newbuf : List Byte)
deriving DecidableEq, Repr

/-- One response (R23, R30): either an error with its kind and no result port, or the results. -/
inductive Response where
  | error (kind : ErrorKind)
  | ok (results : Results)
deriving DecidableEq, Repr

/-- The state. DESIGN CHOICE (assumption log 34): R20 gives the core no state, so both fields are the
host's side of the interface; safe, since no meaning reads either of them. -/
structure State where
  /-- The requests the host has issued and the core has not answered, in the order of issue; the first is
  the one presented to the core (R22, R23, R239). -/
  requests : List Request
  /-- The responses delivered so far, the latest first (R23). -/
  responses : List Response
deriving DecidableEq, Repr

/-- Reasons the machine stops with a fault: there are none. A FormatError is a response, after which the
core answers the next request (R204, R206), and R200 says that there is no other error, fault or trap. -/
inductive Fault where
deriving DecidableEq, Repr

/-- Reasons a step has no meaning. -/
inductive Refusal where
  /-- An operation with no meaning in this model; raised by no arm of `exec`. Safe. -/
  | notModelled (mnemonic : String)
  /-- A reserved select code, 110 or 111: "a model refuses such a request" (R72, R211). Raised by `step`. Safe. -/
  | reservedSelect (op : BitVec 3)
  /-- A request that typed ports cannot present, a length port that disagrees with the bytes beside it
  (R210, U4). Raised by `step`. Safe. -/
  | unpresentable
deriving DecidableEq, Repr

/-- The machine right after reset: no request in progress and no response delivered (R31, R230). -/
def State.reset : State where
  requests := []
  responses := []

end Sys2Proof.Machine
end

