-- ==== Sys2Proof/Machine/Operands.lean ====
section
/-! DEFINITION. The operand forms and the number and character functions that the rules are written in. -/

namespace Sys2Proof.Machine

/-- `clamp(v, lo, hi)` of R8. -/
def clamp (v lo hi : Int) : Int := if v < lo then lo else if hi < v then hi else v

/-- `mask(w)` of R8. -/
def mask (w : Nat) : Nat := (1 <<< w) - 1

/-- `sext_N(v)` of R8: an N-bit pattern read as a two's-complement integer. -/
def sext (n v : Nat) : Int := if v < 2 ^ (n - 1) then (v : Int) else (v : Int) - 2 ^ n

/-- The integer on a signed value port (R25). -/
def signedValue (pattern : Signed64) : Int := sext 64 pattern.toNat

/-- The value of an input of FC.GENERATE: 0 when it is absent, whatever its value port carries (R26, R136). -/
def valueOrZero (p : Port Signed64) : Int := if p.present then signedValue p.value else 0

/-- `x` where the input is absent, `f value` where it is present: an override of CR.WRITE (R26). -/
def applyIfPresent {α β : Type} (p : Port α) (f : α → β → β) (x : β) : β :=
  if p.present then f p.value x else x

/-- A vector of `n` ports from a function of the index. -/
def tabulate {α : Type} (n : Nat) (f : Nat → α) : Vector α n := ⟨⟨(List.range n).map f⟩, by simp⟩

/-- The seven attributes from a function of the position k = 0..6 in `APP` (R130). -/
def attrsOf {α : Type} (f : Nat → α) : AppAttrs α where
  hair := f 0
  beard := f 1
  skin := f 2
  hairTexture := f 3
  hairColor := f 4
  age := f 5
  skinColor := f 6

/-- `APP[k]` (R130): the attribute at position k, for k = 0..6; the last one for any larger k. -/
def attrAt {α : Type} (a : AppAttrs α) (k : Nat) : α :=
  match k with
  | 0 => a.hair
  | 1 => a.beard
  | 2 => a.skin
  | 3 => a.hairTexture
  | 4 => a.hairColor
  | 5 => a.age
  | _ => a.skinColor

/-- The ASCII codes of `0`, `x` and `X` (R43). -/
abbrev char0 : Byte := 0x30#8
abbrev charx : Byte := 0x78#8
abbrev charX : Byte := 0x58#8

/-- `hexval(c)` of R78, with the codes of R43: none for a byte that is not a hex digit. -/
def hexval (c : Byte) : Option Nat :=
  if 0x30 ≤ c.toNat ∧ c.toNat ≤ 0x39 then some (c.toNat - 0x30)
  else if 0x61 ≤ c.toNat ∧ c.toNat ≤ 0x66 then some (c.toNat - 0x61 + 10)
  else if 0x41 ≤ c.toNat ∧ c.toNat ≤ 0x46 then some (c.toNat - 0x41 + 10)
  else none

/-- The digits `0123456789abcdef` as ASCII bytes (R79, R43). -/
def hexDigits : List Byte :=
  [0x30, 0x31, 0x32, 0x33, 0x34, 0x35, 0x36, 0x37, 0x38, 0x39, 0x61, 0x62, 0x63, 0x64, 0x65, 0x66]

/-- `hexdig(n)` of R79, for n ≤ 15. -/
def hexdig (n : Nat) : Byte := hexDigits.getD n char0

end Sys2Proof.Machine
end

