-- ==== Sys2Proof/Machine/Ops.lean ====
section
/-! DEFINITION. The named operations over byte sequences (R9, R10), over the state, and the delivery of an
error. -/

namespace Sys2Proof.Machine

/-- `buf[i]` of R9. No rule reads past the end of a buffer (the length checks exclude it, 20_memory.md
section 5); the value 0 there is read by nothing. -/
def byteAt (buf : List Byte) (i : Nat) : Byte := buf.getD i 0

/-- The `n` bytes of `buf` from offset `off` on, as far as they exist: `buf[off .. off+n-1]` of R9. -/
def slice (buf : List Byte) (off n : Nat) : List Byte := (buf.drop off).take n

/-- `MemRead(buf, off, n)` of R10: the little-endian unsigned integer of `n` bytes. -/
def memRead (buf : List Byte) (off n : Nat) : Nat :=
  ((List.range n).map (fun k => 2 ^ (8 * k) * (byteAt buf (off + k)).toNat)).sum

/-- The buffer with `bs` written over the bytes from offset `off` on, nothing else changed; the length of
the buffer stays. -/
def writeBytes (buf : List Byte) (off : Nat) : List Byte → List Byte
  | [] => buf
  | b :: bs => writeBytes (buf.set off b) (off + 1) bs

/-- The `n` bytes of `v`, least significant first (R10, R44). -/
def leBytes (n v : Nat) : List Byte :=
  (List.range n).map (fun k => BitVec.ofNat 8 (bits v (8 * k + 7) (8 * k)))

/-- `MemWrite(buf, off, n, v)` of R10. -/
def memWrite (buf : List Byte) (off n v : Nat) : List Byte := writeBytes buf off (leBytes n v)

/-- The core answers the request: one response leaves, nothing else changes (R20, R23). -/
def deliver (r : Response) (s : State) : State := { s with responses := r :: s.responses }

/-- `raise FormatError(kind)` (R11, R204), this hardware's taking of an exception: the response carries
`status = kind` and nothing else; nothing is saved, no mode changes and no handler is entered. The core is
then ready for the next request, so there is no return from it (R206). -/
def raiseFormatError (kind : ErrorKind) (s : State) : Host.Outcome State Fault Refusal :=
  .next (deliver (.error kind) s)

/-- The end of an operation: its results with status OK, or the FormatError it raised. -/
def conclude (r : Except ErrorKind Results) (s : State) : Host.Outcome State Fault Refusal :=
  match r with
  | .ok results => .next (deliver (.ok results) s)
  | .error kind => raiseFormatError kind s

/-- The request presented to the core and the state without it; none where the host has issued none
(R22, R23). -/
def fetch (s : State) : Option (Request × State) :=
  match s.requests with
  | [] => none
  | q :: rest => some (q, { s with requests := rest })

/-- Why the machine has no meaning for a request that does not decode. -/
def refusalOf : DecodeError → Refusal
  | .reservedSelect op => .reservedSelect op
  | .unpresentable => .unpresentable

/-- The host issues a request: it is presented after those issued before it. -/
def issue (q : Request) (s : State) : State := { s with requests := s.requests ++ [q] }

/-- The host presents a request to be answered next. -/
def present (q : Request) (s : State) : State := { s with requests := q :: s.requests }

/-- Reset, an event from outside and not a step (R230): the request in progress is abandoned and gets no
response; nothing else is there to change. DEDUCED (assumption log 46): the request in progress is the
presented one. Unsafe, if a core held more than one request. -/
def resetCore (s : State) : State := { s with requests := s.requests.drop 1 }

end Sys2Proof.Machine
end

