-- ==== Sys2Proof/Machine/BitField.lean ====
section
/-! DEFINITION. The BitField unit: `extract`, `pack` and `insert`, defined once and used by every other unit
(R120), and the operations BF.EXTRACT and BF.PACK. All arithmetic is over the integers (R7, R113). -/

namespace Sys2Proof.Machine

/-- `extract(block, off, wid)` of R110. -/
def extract (block off wid : Nat) : Nat := (block >>> off) &&& mask wid

/-- `pack(off, wid, value)` of R111. -/
def pack (off wid : Nat) (value : Int) : Nat := (clamp value 0 (mask wid)).toNat <<< off

/-- `insert(w, off, wid, v)` of R118 on a word of `width` bits: the field is replaced, every other bit kept. -/
def insert (width w off wid : Nat) (value : Int) : Nat :=
  (w &&& (mask width ^^^ (mask wid <<< off))) ||| pack off wid value

/-- One field of a block and the value it is to hold. -/
structure FieldValue where
  off : Nat
  wid : Nat
  value : Int
deriving DecidableEq, Repr

/-- The OR of the contributions of a list of fields (R111, R138). -/
def orFields (fs : List FieldValue) : Nat := fs.foldr (fun f acc => pack f.off f.wid f.value ||| acc) 0

/-- BF.EXTRACT (R110). The 64-bit result port never truncates. -/
def execBfExtract (block : Block) (off : BitVec 6) (wid : BitVec 7) (s : State) : Host.Outcome State Fault Refusal :=
  conclude (.ok (.bfExtract (BitVec.ofNat 64 (extract block.toNat off.toNat wid.toNat)))) s

/-- BF.PACK (R111). The 128-bit result port never truncates (R119). -/
def execBfPack (off : BitVec 6) (wid : BitVec 7) (value : Signed64) (s : State) : Host.Outcome State Fault Refusal :=
  conclude (.ok (.bfPack (BitVec.ofNat 128 (pack off.toNat wid.toNat (signedValue value))))) s

end Sys2Proof.Machine
end

