-- ==== Sys2Proof/Config.lean ====
section
/-! DEFINITION. The parameters of R6: constants of the implementation, fixed before any operation and
written by none (R28). Those that fix a width, a count or a length (BLOCK_W 64, NBLOCK 4, NMORPH 43, NAPP 7,
FC_DIGITS 64, REC_MIN 89, APP_BYTES 11, OFF_W 6, WID_W 7, PACK_W 128, VW 64, NAME_MAX 255) stand as numbers in
the types of the ports and in the rules that use them. REC_MAX and TEXT_MAX are OPEN and taken unbounded, as
R6 allows (assumption log 16). -/

namespace Sys2Proof

/-- The two settings of WR_NAME_ORDER (R6, R175): does CR.WRITE apply the name override before or after
the fixed-offset overrides. -/
inductive NameOrder where
  | nameFirst
  | nameLast
deriving DecidableEq, Repr, Inhabited

/-- The parameters that an operation's rules read. The four clamp bounds have the width of the bytes they
are stored in, so that every setting fits its field (D21). -/
structure Params where
  /-- FC_PREFIX_ANYCASE (R6, R75): FC.PARSE strips `0X` as well as `0x`. -/
  fcPrefixAnycase : Bool
  /-- SEX_MAX (R6, R173). -/
  sexMax : BitVec 8
  /-- SKIN_MAX (R6, R173). -/
  skinMax : BitVec 8
  /-- HAIRSTYLE_MAX (R6, R173). -/
  hairstyleMax : BitVec 8
  /-- BANNER_MAX (R6, R173). -/
  bannerMax : BitVec 32
  /-- WR_NAME_ORDER (R6, R175). -/
  wrNameOrder : NameOrder
deriving DecidableEq, Repr

/-- WR_NAME_ORDER is OPEN (R6, R175, D23): a constant of the implementation with no body, so that nothing
can be proved that does not hold for both settings (assumption log 23). -/
opaque Config.wrNameOrder : NameOrder

/-- The parameters of this machine: the values R6 fixes, and the open name order. -/
def Config.params : Params where
  fcPrefixAnycase := true
  sexMax := 255
  skinMax := 255
  hairstyleMax := 255
  bannerMax := 0xFFFFFFFF
  wrNameOrder := Config.wrNameOrder

end Sys2Proof
end

