-- ==== Sys2Proof/Machine/CharRecordUnit.lean ====
section
/-! DEFINITION. The Character Record unit: CR.READ (R160 to R169) and CR.WRITE (R170 to R179), over the
record map of R49: `name_length` at 0, `name` from 4, `sex` at 5, `banner` at 9..12, `hairstyle` at 13, `skin`
at 14, `hair_color` and `age` in the word at 16..17, `appearance` at 21..31. -/

namespace Sys2Proof.Machine

/-- How many name bytes fit: `min(n, LEN - 4)` (R164, R174). -/
def fittingName (n len : Nat) : Nat := min n (len - 4)

/-- The fields of a buffer of at least 89 bytes, each from its own fixed offset (R160 to R168). -/
def recordOf (buf : List Byte) : CharacterRecord :=
  let nameLength := byteAt buf 0
  let nlen := fittingName nameLength.toNat buf.length
  let w16 := memRead buf 16 2
  { nameLength := nameLength
    nlen := nlen
    name := slice buf 4 nlen
    sex := byteAt buf 5
    banner := BitVec.ofNat 32 (memRead buf 9 4)
    hairstyle := byteAt buf 13
    skin := byteAt buf 14
    hairColor := BitVec.ofNat 6 (extract w16 0 6)
    age := BitVec.ofNat 6 (extract w16 6 6)
    appearance := tabulate 11 (fun j => byteAt buf (21 + j))
    raw := buf }

/-- `read` of R160: the length is the only check (R161, R169). -/
def readRecord (buf : List Byte) : Except ErrorKind CharacterRecord :=
  if buf.length < 89 then .error .shortBuffer else .ok (recordOf buf)

/-- A one-byte override: the value clamped to 0..`hi` and stored at `off` (R173, R176). -/
def writeByteField (off : Nat) (hi : BitVec 8) (value : Signed64) (out : List Byte) : List Byte :=
  memWrite out off 1 (clamp (signedValue value) 0 hi.toNat).toNat

/-- The banner override: the value clamped and stored little-endian at 9..12 (R173, R176). -/
def writeBanner (hi : BitVec 32) (value : Signed64) (out : List Byte) : List Byte :=
  memWrite out 9 4 (clamp (signedValue value) 0 hi.toNat).toNat

/-- A field of the packed word at 16..17 replaced, the word's other bits kept (R170, R177). -/
def writePackedField (off wid : Nat) (value : Signed64) (out : List Byte) : List Byte :=
  memWrite out 16 2 (insert 16 (memRead out 16 2) off wid (signedValue value))

/-- The appearance override: the 11 bytes as given (R178). -/
def writeAppearance (bytes : Vector Byte 11) (out : List Byte) : List Byte :=
  writeBytes out 21 bytes.toList

/-- The name override (`apply_name` of R170, R174): byte 0 and the name bytes that fit. -/
def writeName (name : List Byte) (out : List Byte) : List Byte :=
  let n := fittingName name.length out.length
  writeBytes (out.set 0 (BitVec.ofNat 8 n)) 4 (name.take n)

/-- The overrides at fixed offsets, in the order of R170 (their bits are disjoint, R175). -/
def writeFixed (p : Params) (ov : Overrides) (out : List Byte) : List Byte :=
  let out := applyIfPresent ov.sex (writeByteField 5 p.sexMax) out
  let out := applyIfPresent ov.banner (writeBanner p.bannerMax) out
  let out := applyIfPresent ov.hairstyle (writeByteField 13 p.hairstyleMax) out
  let out := applyIfPresent ov.skin (writeByteField 14 p.skinMax) out
  let out := applyIfPresent ov.hairColor (writePackedField 0 6) out
  let out := applyIfPresent ov.age (writePackedField 6 6) out
  applyIfPresent ov.appearance writeAppearance out

/-- The name override where it is present and the name order is `order` (R170). -/
def writeNameWhen (order : NameOrder) (p : Params) (ov : Overrides) (out : List Byte) : List Byte :=
  if ov.name.present && p.wrNameOrder == order then writeName ov.name.value out else out

/-- `write` of R170 on a template of at least 89 bytes: a new buffer (R171). -/
def newBuffer (p : Params) (template : List Byte) (ov : Overrides) : List Byte :=
  writeNameWhen .nameLast p ov (writeFixed p ov (writeNameWhen .nameFirst p ov template))

/-- `write` of R170: a short template raises before anything is produced (R172, R205). -/
def writeRecord (p : Params) (template : List Byte) (ov : Overrides) : Except ErrorKind (List Byte) :=
  if template.length < 89 then .error .shortBuffer else .ok (newBuffer p template ov)

/-- A name of `n` written bytes covers offset `off` (R50: offsets 4 .. 3+n). -/
def nameCovers (n off : Nat) : Bool := 4 ≤ off && off < 4 + n

/-- A contested request (R175): a name is present, and another present override has a byte the name
covers. Each field is given with its first and last offset (R49). -/
def contested (template : List Byte) (ov : Overrides) : Bool :=
  let n := fittingName ov.name.value.length template.length
  ov.name.present &&
    ((ov.sex.present && nameCovers n 5) || (ov.banner.present && nameCovers n 9) ||
      (ov.hairstyle.present && nameCovers n 13) || (ov.skin.present && nameCovers n 14) ||
      (ov.hairColor.present && nameCovers n 16) || (ov.age.present && (nameCovers n 16 || nameCovers n 17)) ||
      (ov.appearance.present && nameCovers n 21))

/-- CR.READ (R160). -/
def execCrRead (buf : List Byte) (s : State) : Host.Outcome State Fault Refusal :=
  conclude ((readRecord buf).map .crRead) s

/-- CR.WRITE (R170). -/
def execCrWrite (template : List Byte) (ov : Overrides) (s : State) : Host.Outcome State Fault Refusal :=
  conclude ((writeRecord Config.params template ov).map .crWrite) s

end Sys2Proof.Machine
end

