-- ==== Sys2Proof/Machine/FaceCodeUnit.lean ====
section
/-! DEFINITION. The Face Code unit: FC.PARSE (R130 to R134) and FC.GENERATE (R135 to R140), over the block
layouts of R81 to R84. -/

namespace Sys2Proof.Machine

/-- The first two characters are the removable `0x` (or `0X` where the parameter allows it; R75, R131). -/
def isHexMark (p : Params) (c0 c1 : Byte) : Bool :=
  c0 == char0 && (c1 == charx || (p.fcPrefixAnycase && c1 == charX))

/-- The text with its `0x` removed, once, where it has one (R76, R131). -/
def stripMark (p : Params) (text : List Byte) : List Byte :=
  match text with
  | c0 :: c1 :: rest => if isHexMark p c0 c1 then rest else text
  | _ => text

/-- The value of the digit at position `i`; positions that hold no hex digit are never asked for (R132). -/
def digitValue (digits : List Byte) (i : Nat) : Nat := (hexval (byteAt digits i)).getD 0

/-- Block `k` of the 64 digits, the most significant digit first (R80, R133). -/
def blockOf (digits : List Byte) (k : Nat) : Nat :=
  ((List.range 16).map (fun j => 16 ^ (15 - j) * digitValue digits (16 * k + j))).sum

/-- `morph[i]`: from B1 for i = 0..20, from B2 for i = 21..41, and bit 63 of B2 for i = 42 (R82, R83, R130). -/
def morphField (b1 b2 i : Nat) : Nat :=
  if i ≤ 20 then extract b1 (3 * i) 3
  else if i ≤ 41 then extract b2 (3 * (i - 21)) 3
  else extract b2 63 1

/-- The fields of the four blocks (R81 to R84, R134). -/
def fieldsOf (b0 b1 b2 b3 : Nat) : FaceCode where
  morph := tabulate 43 (fun i => BitVec.ofNat 3 (morphField b1 b2 i))
  app := attrsOf (fun k => BitVec.ofNat 6 (extract b0 (6 * k) 6))
  b3 := BitVec.ofNat 64 b3

/-- `parse` of R130: the length is tested before the characters (R131, R132, R203). -/
def parse (p : Params) (text : List Byte) : Except ErrorKind FaceCode :=
  let digits := stripMark p text
  if digits.length ≠ 64 then .error .badLength
  else if digits.any (fun c => (hexval c).isNone) then .error .badCharset
  else .ok (fieldsOf (blockOf digits 0) (blockOf digits 1) (blockOf digits 2) (blockOf digits 3))

/-- The value of `morph[i]` that FC.GENERATE packs, 0 where it is absent (R135, R136). -/
def morphInput (morph : Vector (Port Signed64) 43) (i : Nat) : Int :=
  ((morph.toList[i]?).map valueOrZero).getD 0

/-- The fields of B0 (R81): `APP[k]` at offset 6k, 6 bits wide. -/
def b0Fields (app : AppAttrs (Port Signed64)) : List FieldValue :=
  (List.range 7).map (fun k => ⟨6 * k, 6, valueOrZero (attrAt app k)⟩)

/-- The fields of B1 (R82): `morph[i]` at offset 3i, 3 bits wide. -/
def b1Fields (morph : Vector (Port Signed64) 43) : List FieldValue :=
  (List.range 21).map (fun i => ⟨3 * i, 3, morphInput morph i⟩)

/-- The fields of B2 (R83): `morph[21+i]` at offset 3i, 3 bits wide, and `morph[42]` at offset 63, 1 bit wide. -/
def b2Fields (morph : Vector (Port Signed64) 43) : List FieldValue :=
  (List.range 21).map (fun i => ⟨3 * i, 3, morphInput morph (21 + i)⟩) ++ [⟨63, 1, morphInput morph 42⟩]

/-- `hex16(B)` of R135: 16 lowercase digits, the most significant first (R80, R139). -/
def hex16 (b : Nat) : List Byte :=
  (List.range 16).map (fun j => hexdig (bits b (4 * (15 - j) + 3) (4 * (15 - j))))

/-- `generate` of R135: B3 is 0 (R84), and the text always begins with `0x` (R74, R139). -/
def generate (morph : Vector (Port Signed64) 43) (app : AppAttrs (Port Signed64)) : List Byte :=
  [char0, charx] ++ hex16 (orFields (b0Fields app)) ++ hex16 (orFields (b1Fields morph)) ++
    hex16 (orFields (b2Fields morph)) ++ hex16 0

/-- FC.PARSE (R130). -/
def execFcParse (text : List Byte) (s : State) : Host.Outcome State Fault Refusal :=
  conclude ((parse Config.params text).map .fcParse) s

/-- FC.GENERATE (R135). It never raises (R140). -/
def execFcGenerate (morph : Vector (Port Signed64) 43) (app : AppAttrs (Port Signed64)) (s : State) :
    Host.Outcome State Fault Refusal :=
  conclude (.ok (.fcGenerate (generate morph app))) s

end Sys2Proof.Machine
end

