-- ==== Sys2Proof/Machine/Dispatch.lean ====
section
/-! DEFINITION. One arm per operation, each one call of its meaning. -/

namespace Sys2Proof.Machine

def exec (i : Instr) (s : State) : Host.Outcome State Fault Refusal :=
  match i with
  | .bfExtract block off wid => Sys2Proof.Machine.execBfExtract block off wid s
  | .bfPack off wid value => Sys2Proof.Machine.execBfPack off wid value s
  | .fcParse text => Sys2Proof.Machine.execFcParse text s
  | .fcGenerate morph app => Sys2Proof.Machine.execFcGenerate morph app s
  | .crRead buf => Sys2Proof.Machine.execCrRead buf s
  | .crWrite template overrides => Sys2Proof.Machine.execCrWrite template overrides s

end Sys2Proof.Machine
end

