-- ==== Sys2Proof/Machine/Step.lean ====
section
/-! DEFINITION. One step: the core answers the request that is presented to it (R22, R23). -/

namespace Sys2Proof.Machine

/-- One step. With no request presented the core does nothing: "nothing wakes it but a request" (R215).
DESIGN CHOICE (assumption log 35): an idle step is a next state, the same one. -/
def step (s : State) : Host.Outcome State Fault Refusal :=
  match fetch s with
  | none => .next s
  | some (q, s') =>
    match decode q with
    | .ok i => exec i s'
    | .error e => .refused (refusalOf e)

/-- `s` with the request of an opcode-table word presented to the core, to be answered by the next step
(assumption log 36: a program comes to run because the host issues it). -/
def State.withFetchWord (s : State) (nbits w : Nat) : State := present (requestOfTableWord nbits w) s

end Sys2Proof.Machine
end

