-- ==== Sys2Proof/Machine/Flags.lean ====
section
/-! DEFINITION. The core has no condition codes, no carry, overflow or saturation flag, and nothing sticky
(R27). What stands in their place is the `status` of each response. -/

namespace Sys2Proof.Machine

/-- The code of an error (R201). -/
def errorCode : ErrorKind → BitVec 2
  | .badLength => 1
  | .badCharset => 2
  | .shortBuffer => 3

/-- The `status` port of a response (R27, R201). -/
def Response.status : Response → BitVec 2
  | .error kind => errorCode kind
  | .ok _ => 0

end Sys2Proof.Machine
end

