-- ==== Sys2Proof/Safety.lean ====
section
/-! DEFINITION. What the host may rely on of a response and of a run: the terms that statements are
written in. -/

namespace Sys2Proof.Machine

/-- A lowercase hex digit: one of the characters FC.GENERATE emits (R79, R139). -/
def isLowerHex (c : Byte) : Bool := hexDigits.contains c

/-- The canonical form of a face code (R74, R84, R139): `0x`, 64 lowercase digits, the last 16 of them 0. -/
def canonicalText (t : List Byte) : Bool :=
  t.length == 66 && t.take 2 == [char0, charx] && (t.drop 2).all isLowerHex &&
    t.drop 50 == List.replicate 16 char0

/-- What every result satisfies whatever the request was: a contribution is below 2^126 (R111), morph 42 is 0
or 1 (R134), a generated text is canonical (R139), every field of a read record is the one its own raw bytes
give (R160 to R168), a new buffer has at least 89 bytes (R172, R179). -/
def Results.sound : Results → Bool
  | .bfExtract _ => true
  | .bfPack contrib => contrib.toNat < 2 ^ 126
  | .fcParse face => face.morph[42] ≤ 1#3
  | .fcGenerate text => canonicalText text
  | .crRead r =>
    89 ≤ r.raw.length && r.nameLength == byteAt r.raw 0 && r.nlen == min r.nameLength.toNat (r.raw.length - 4) &&
      r.name == slice r.raw 4 r.nlen && r.name.length == r.nlen && r.sex == byteAt r.raw 5 &&
      r.banner.toNat == memRead r.raw 9 4 && r.hairstyle == byteAt r.raw 13 && r.skin == byteAt r.raw 14 &&
      r.hairColor.toNat == bits (memRead r.raw 16 2) 5 0 && r.age.toNat == bits (memRead r.raw 16 2) 11 6 &&
      r.appearance.toList == slice r.raw 21 11
  | .crWrite newbuf => 89 ≤ newbuf.length

/-- Every response is an error with no results, or results within their rules. -/
def Response.sound : Response → Bool
  | .error _ => true
  | .ok results => results.sound

/-- The invariant of the interface: every response the host has received is sound. -/
def State.Sound (s : State) : Prop := ∀ r ∈ s.responses, r.sound = true

/-- A request the core answers: it decodes. -/
def answerable (q : Request) : Bool :=
  match decode q with
  | .ok _ => true
  | .error _ => false

/-- A state no step of which is refused for as long as the host issues nothing more. -/
def State.Safe (s : State) : Prop := ∀ q ∈ s.requests, answerable q = true

/-! The spec's own words, for statements: none of these is called by a meaning. -/

/-- The number an input stands for: its signed value where present, 0 where absent (R25, R26). -/
def presented (p : Port Signed64) : Int := if p.present then p.value.toInt else 0

/-- The value of 0..`hi` nearest to `v` (R8, R112). -/
def nearest (hi : Nat) (v : Int) : Nat := (max 0 (min v hi)).toNat

/-- What a present override stores in a field of range 0..`hi`, and what stands there otherwise (R26, R173). -/
def stored (p : Port Signed64) (hi old : Nat) : Nat := if p.present then nearest hi p.value.toInt else old

/-- The number that a run of hex digits writes, the most significant first (R78, R80). -/
def digitsValue (ds : List Byte) : Nat := ds.foldl (fun acc c => 16 * acc + (hexval c).getD 0) 0

/-- Block `k` of 64 digits: digits 16k .. 16k+15 (R45, R51). -/
def blockValue (ds : List Byte) (k : Nat) : Nat := digitsValue ((ds.drop (16 * k)).take 16)

/-- The two-character marks FC.PARSE removes, and the empty one (R75, with FC_PREFIX_ANYCASE true). -/
def marks : List (List Byte) := [[], [char0, charx], [char0, charX]]

/-- A byte that is one of `0`..`9`, `a`..`f`, `A`..`F` (R75, with the codes of R43). -/
def hexDigitByte (c : Byte) : Bool :=
  (0x30 ≤ c.toNat && c.toNat ≤ 0x39) || (0x61 ≤ c.toNat && c.toNat ≤ 0x66) || (0x41 ≤ c.toNat && c.toNat ≤ 0x46)

/-- Sixty-four hex digits, in either case (R75). -/
def sixtyFourDigits (ds : List Byte) : Prop := ds.length = 64 ∧ ∀ c ∈ ds, hexDigitByte c = true

/-- A character in lower case (R142, ASCII as R43). -/
def lower (c : Byte) : Byte := if 0x41 ≤ c.toNat ∧ c.toNat ≤ 0x5A then c + 0x20#8 else c

/-- The ports that present a number delivered on a result port. -/
def asInput {w : Nat} (v : BitVec w) : Port Signed64 := ⟨true, v.setWidth 64⟩

/-- The inputs of FC.GENERATE that present the morphs and the attributes FC.PARSE delivered, all present. -/
def morphInputs (f : FaceCode) : Vector (Port Signed64) 43 := tabulate 43 (fun i => asInput (f.morph.toList.getD i 0))
def attrInputs (f : FaceCode) : AppAttrs (Port Signed64) := attrsOf (fun k => asInput (attrAt f.app k))

/-- How many name bytes a CR.WRITE request writes (R174): none without a name override. -/
def writtenName (template : List Byte) (ov : Overrides) : Nat :=
  if ov.name.present then min ov.name.value.length (template.length - 4) else 0

/-- The present overrides write bit `k` of the byte at offset `a` (R49, R174, R176 to R178). -/
def writesBit (template : List Byte) (ov : Overrides) (a k : Nat) : Prop :=
  (ov.name.present = true ∧ (a = 0 ∨ (4 ≤ a ∧ a < 4 + writtenName template ov))) ∨
  (ov.sex.present = true ∧ a = 5) ∨
  (ov.banner.present = true ∧ 9 ≤ a ∧ a ≤ 12) ∨
  (ov.hairstyle.present = true ∧ a = 13) ∨
  (ov.skin.present = true ∧ a = 14) ∨
  (ov.hairColor.present = true ∧ a = 16 ∧ k < 6) ∨
  (ov.age.present = true ∧ ((a = 16 ∧ 6 ≤ k) ∨ (a = 17 ∧ k < 4))) ∨
  (ov.appearance.present = true ∧ 21 ≤ a ∧ a ≤ 31)

/-- The machine's parameters with the open name order settled (R175). -/
def paramsWith (order : NameOrder) : Params := { Config.params with wrNameOrder := order }

end Sys2Proof.Machine
end

