-- ==== Sys2Proof/Certificates/Slice0/Obligations.lean ====
section
/-! DEFINITION. The statements for the provers, in the order of OBLIGATIONS.json. A statement about a next
state gives it as `s` with one response added: that is its frame, since a state holds nothing else than the
requests still to be answered and the responses delivered. -/

open Sys2Proof Sys2Proof.Machine

/-! The machine and the interface (10_state.md, 30_encoding.md section 1, 60_exceptions.md). -/

/-- 10_state.md section 4: after reset no request is in progress and no response has been delivered, and the
first operation after reset is answered as in any other state. The two lists are the model's own form of
the interface (assumption log 34). -/
def Obligations.ResetHoldsNothingAndAnswersAsAlways : Prop :=
  State.reset.requests = [] ∧ State.reset.responses = [] ∧
  ∀ (i : Instr) (s : State), ∃ r,
    exec i s = .next { s with responses := r :: s.responses } ∧
    exec i State.reset = .next { State.reset with responses := [r] }

/-- A step runs the decoded operation: where the presented request decodes to `i`, the step is `exec i` on
the state without that request. That the requests stand in a list is the model's form (assumption log 34). -/
def Obligations.StepRunsTheDecodedOperation : Prop :=
  ∀ (s : State) (q : Request) (rest : List Request) (i : Instr),
    s.requests = q :: rest → decode q = .ok i → step s = exec i { s with requests := rest }

/-- With no request presented the core does nothing and the state stays. The model's choice (assumption log
35), from R215 "nothing wakes it but a request". -/
def Obligations.StepWithoutRequestIsIdle : Prop :=
  ∀ s : State, s.requests = [] → step s = .next s

/-- R72: the select codes 110 and 111 select no operation, whatever the ports carry, and the model refuses
the request. -/
def Obligations.ReservedSelectIsRefused : Prop :=
  ∀ (s : State) (q : Request) (rest : List Request),
    s.requests = q :: rest → (q.op = 0b110#3 ∨ q.op = 0b111#3) →
      step s = .refused (.reservedSelect q.op)

/-- U4 with R24: a request whose length port disagrees with the bytes beside it cannot be presented on typed
ports, and the model refuses it. The model's choice of form (assumption log 38). -/
def Obligations.MismatchedLengthPortIsRefused : Prop :=
  ∀ (s : State) (q : Request) (rest : List Request),
    s.requests = q :: rest →
      ((q.op = 0b010#3 ∧ q.parse.text.length ≠ q.parse.tlen) ∨
        (q.op = 0b100#3 ∧ q.read.buf.length ≠ q.read.len) ∨
        (q.op = 0b101#3 ∧ q.write.template.length ≠ q.write.len) ∨
        (q.op = 0b101#3 ∧ q.write.name.length ≠ q.write.nlen.toNat)) →
      step s = .refused .unpresentable

/-- R71 with R24: each of the six select codes names its operation, with that operation's own ports, and the
two reserved codes name none. -/
def Obligations.SelectCodesNameTheSixOperations : Prop :=
  ∀ q : Request,
    (q.op = 0b000#3 → decode q = .ok (.bfExtract q.extract.block q.extract.off q.extract.wid)) ∧
    (q.op = 0b001#3 → decode q = .ok (.bfPack q.pack.off q.pack.wid q.pack.value)) ∧
    (q.op = 0b010#3 → q.parse.tlen = q.parse.text.length → decode q = .ok (.fcParse q.parse.text)) ∧
    (q.op = 0b011#3 → decode q = .ok (.fcGenerate q.generate.morph q.generate.app)) ∧
    (q.op = 0b100#3 → q.read.len = q.read.buf.length → decode q = .ok (.crRead q.read.buf)) ∧
    (q.op = 0b101#3 → q.write.len = q.write.template.length → q.write.nlen.toNat = q.write.name.length →
      decode q = .ok (.crWrite q.write.template
        { name := ⟨q.write.namePresent, q.write.name⟩, sex := q.write.sex, banner := q.write.banner,
          hairstyle := q.write.hairstyle, skin := q.write.skin, age := q.write.age,
          hairColor := q.write.hairColor, appearance := q.write.appearance })) ∧
    ((q.op = 0b110#3 ∨ q.op = 0b111#3) → ∀ i, decode q ≠ .ok i)

/-- The words of the six rows of the opcode table decode to their rows' operations, and the reserved words to
none (R71, R72). That a table word of 8 bits stands for the request with that select and every port at 0,
empty or absent is the model's choice (assumption log 36): the spec gives a word the select bits only. -/
def Obligations.TableWordsDecode : Prop :=
  decodeTableWord 8 0b000 = some (.bfExtract 0 0 0) ∧
  decodeTableWord 8 0b001 = some (.bfPack 0 0 0) ∧
  decodeTableWord 8 0b010 = some (.fcParse []) ∧
  decodeTableWord 8 0b011 = some (.fcGenerate (tabulate 43 fun _ => noValue) (attrsOf fun _ => noValue)) ∧
  decodeTableWord 8 0b100 = some (.crRead []) ∧
  decodeTableWord 8 0b101 = some (.crWrite []
    { name := ⟨false, []⟩, sex := noValue, banner := noValue, hairstyle := noValue, skin := noValue, age := noValue,
      hairColor := noValue, appearance := ⟨false, tabulate 11 fun _ => 0⟩ }) ∧
  decodeTableWord 8 0b110 = none ∧ decodeTableWord 8 0b111 = none

/-- Decode and encode agree: the request that encodes a well-formed operation decodes to it, with every
operand at every value its port admits. -/
def Obligations.DecodeOfEncode : Prop :=
  ∀ i : Instr, WellFormed i = true → decode (encode i) = .ok i

/-- Each request that decodes names one operation: the operation is well formed, carries the request's
select code and encodes to a request that names it again. -/
def Obligations.EncodeOfDecoded : Prop :=
  ∀ (q : Request) (i : Instr), decode q = .ok i →
    WellFormed i = true ∧ (encode i).op = q.op ∧ decode (encode i) = .ok i

/-- R20, R23: every operation answers exactly one response, which is a function of the request alone, and
changes nothing else. -/
def Obligations.ResponseDependsOnRequestAlone : Prop :=
  ∀ i : Instr, ∃ r : Response, ∀ s : State,
    exec i s = .next { requests := s.requests, responses := r :: s.responses }

/-- R201: the status codes, and that every response carries the code of its own outcome. -/
def Obligations.StatusCodesOfResponses : Prop :=
  (∀ r : Results, (Response.ok r).status = 0#2) ∧
  (Response.error .badLength).status = 1#2 ∧
  (Response.error .badCharset).status = 2#2 ∧
  (Response.error .shortBuffer).status = 3#2

/-- 60_exceptions.md section 1, which operation can fail (R202, which the spec marks as derived): no
operation answers a code outside its list, and an OK response carries the results of its own operation. -/
def Obligations.EachOperationAnswersItsOwnStatusCodes : Prop :=
  (∀ block off wid s, ∃ v, exec (.bfExtract block off wid) s =
    .next { s with responses := .ok (.bfExtract v) :: s.responses }) ∧
  (∀ off wid value s, ∃ c, exec (.bfPack off wid value) s =
    .next { s with responses := .ok (.bfPack c) :: s.responses }) ∧
  (∀ morph app s, ∃ t, exec (.fcGenerate morph app) s =
    .next { s with responses := .ok (.fcGenerate t) :: s.responses }) ∧
  (∀ text s, ∃ r, exec (.fcParse text) s = .next { s with responses := r :: s.responses } ∧
    ((∃ f, r = .ok (.fcParse f)) ∨ r = .error .badLength ∨ r = .error .badCharset)) ∧
  (∀ buf s, ∃ r, exec (.crRead buf) s = .next { s with responses := r :: s.responses } ∧
    ((∃ c, r = .ok (.crRead c)) ∨ r = .error .shortBuffer)) ∧
  (∀ template ov s, ∃ r, exec (.crWrite template ov) s = .next { s with responses := r :: s.responses } ∧
    ((∃ b, r = .ok (.crWrite b)) ∨ r = .error .shortBuffer))

/-- 70_reset_and_hazards.md R239 with 20_memory.md R55: a run over a list of presentable requests ends with
one response for each, in order, each the one its request gets alone; what was delivered before and what is
issued after has no part in it. That requests and responses stand in lists is the model's form (assumption
log 34). -/
def Obligations.RunAnswersEachRequestAsIfAlone : Prop :=
  ∃ answer : Instr → Response,
    (∀ i s, exec i s = .next { s with responses := answer i :: s.responses }) ∧
    ∀ (is : List Instr) (rest : List Request) (past : List Response),
      (∀ i ∈ is, WellFormed i = true) →
        Sys2Proof.core.run is.length { requests := is.map encode ++ rest, responses := past } =
          .next { requests := rest, responses := (is.map answer).reverse ++ past }

/-- R230: reset abandons the request in progress, which gets no response, whether or not others stand behind
it, and the next request, issued before or after the reset, is answered as in any other state. That the request
in progress is the presented one is the model's reading (assumption log 46). -/
def Obligations.ResetAbandonsTheRequestInProgress : Prop :=
  resetCore State.reset = State.reset ∧
  ∀ (q : Request) (rest : List Request) (past : List Response),
    resetCore { requests := q :: rest, responses := past } = { requests := rest, responses := past } ∧
    ∀ (next : Request) (i : Instr), decode next = .ok i →
      (∀ behind, rest = next :: behind →
        step (resetCore { requests := q :: rest, responses := past }) =
          exec i { requests := behind, responses := past }) ∧
      (rest = [] →
        step (issue next (resetCore { requests := q :: rest, responses := past })) =
          exec i { requests := [], responses := past })

/-- While every issued request decodes, a step is a next state, never a fault or a refusal, and leaves every
issued request decodable. Derived from R204, R206 (an error is a response) and R72. -/
def Obligations.SafeStateStepsToSafeState : Prop :=
  ∀ s : State, s.Safe → ∃ t, step s = .next t ∧ t.Safe

/-- Every step keeps the invariant that each delivered response is sound: what R111, R134,
R139, R160 to R168 and R179 say of results, as `Results.sound` spells it out, holds of whatever the core has
answered. -/
def Obligations.StepKeepsResponsesSound : Prop :=
  ∀ s t : State, s.Sound → step s = .next t → t.Sound

/-- The invariant of `StepKeepsResponsesSound` holds at reset. -/
def Obligations.ResetResponsesSound : Prop := State.reset.Sound

/-! The BitField unit (40_bitfield.md, 10_state.md R25). -/

/-- R25 with R8: a signed port is read as two's complement, an integer in -2^63 .. 2^63-1. -/
def Obligations.SignedPortIsTwosComplement : Prop :=
  ∀ p : Signed64, signedValue p = p.toInt ∧ -2 ^ 63 ≤ signedValue p ∧ signedValue p ≤ 2 ^ 63 - 1

/-- R110: BF.EXTRACT answers the field's bits, those from 64 up being 0, with status OK for any operands;
its corner cases and its example. -/
def Obligations.BfExtractReadsTheField : Prop :=
  (∀ (block : Block) (off : BitVec 6) (wid : BitVec 7) (s : State),
    (encode (.bfExtract block off wid)).op = 0b000#3 ∧
    ∃ value : Block,
      exec (.bfExtract block off wid) s = .next { s with responses := .ok (.bfExtract value) :: s.responses } ∧
      (Response.ok (.bfExtract value)).status = 0#2 ∧
      value.toNat = block.toNat / 2 ^ off.toNat % 2 ^ wid.toNat ∧
      value.toNat < 2 ^ min wid.toNat (64 - off.toNat) ∧
      (wid = 0 → value = 0) ∧
      (wid ≠ 0 → off.toNat + wid.toNat ≤ 64 → value.toNat = bits block.toNat (off.toNat + wid.toNat - 1) off.toNat) ∧
      (64 < off.toNat + wid.toNat → value.toNat = bits block.toNat 63 off.toNat) ∧
      (64 ≤ wid.toNat → value = block >>> off.toNat)) ∧
  ∀ s : State, exec (.bfExtract 0x0000000180000041 30 6) s =
    .next { s with responses := .ok (.bfExtract 6) :: s.responses }

/-- R111: BF.PACK answers the value clamped into the field and shifted into place, never truncated, with
status OK for any operands; its corner cases and its examples. -/
def Obligations.BfPackClampsAndShifts : Prop :=
  (∀ (off : BitVec 6) (wid : BitVec 7) (value : Signed64) (s : State),
    (encode (.bfPack off wid value)).op = 0b001#3 ∧
    ∃ contrib : BitVec 128,
      exec (.bfPack off wid value) s = .next { s with responses := .ok (.bfPack contrib) :: s.responses } ∧
      (Response.ok (.bfPack contrib)).status = 0#2 ∧
      (value.toInt < 0 → contrib = 0) ∧
      (0 ≤ value.toInt → value.toInt < 2 ^ wid.toNat → (contrib.toNat : Int) = value.toInt * 2 ^ off.toNat) ∧
      ((2 : Int) ^ wid.toNat ≤ value.toInt → contrib.toNat = (2 ^ wid.toNat - 1) * 2 ^ off.toNat) ∧
      contrib.toNat < 2 ^ (off.toNat + min wid.toNat 63)) ∧
  ∀ s : State,
    exec (.bfPack 0 3 9) s = .next { s with responses := .ok (.bfPack 7) :: s.responses } ∧
    exec (.bfPack 63 1 5) s = .next { s with responses := .ok (.bfPack 0x8000000000000000) :: s.responses }

/-- R112: clamp, never mask, never wrap. What `pack` puts into a field is the representable value nearest to
the input, and masking (9 in a 3-bit field giving 1) is not what it does. -/
def Obligations.PackGivesTheNearestRepresentableValue : Prop :=
  (∀ (off wid : Nat) (v : Int), ∃ n : Nat,
    pack off wid v = n * 2 ^ off ∧ n < 2 ^ wid ∧
    ∀ m : Nat, m < 2 ^ wid → |v - (n : Int)| ≤ |v - (m : Int)|) ∧
  pack 0 3 9 = 7

/-- 40_bitfield.md section 3, the range of `extract` (R114, which the spec marks as derived from R110). -/
def Obligations.ExtractDependsOnItsFieldAlone : Prop :=
  (∀ block off wid : Nat, extract block off wid < 2 ^ wid) ∧
  ∀ (b c : Block) (off wid : Nat),
    (∀ k, off ≤ k → k < min (off + wid) 64 → b.getLsbD k = c.getLsbD k) →
      extract b.toNat off wid = extract c.toNat off wid

/-- 40_bitfield.md section 3, round trip of one field (R115, which the spec marks as derived). -/
def Obligations.ExtractOfPackIsTheClampedValue : Prop :=
  ∀ (off wid : Nat) (v : Int), off + wid ≤ 64 →
    pack off wid v < 2 ^ 64 ∧ extract (pack off wid v) off wid = nearest (2 ^ wid - 1) v ∧
    (0 ≤ v → v < 2 ^ wid → (extract (pack off wid v) off wid : Int) = v)

/-- 40_bitfield.md section 3, isolation (R116, which the spec marks as derived): a contribution is 0 outside
its own bits, whatever the value. -/
def Obligations.PackIsZeroOutsideItsField : Prop :=
  ∀ (off wid : Nat) (v : Int) (k : Nat), (k < off ∨ off + wid ≤ k) → (pack off wid v).testBit k = false

/-- 40_bitfield.md section 3, OR composition (R117, which the spec marks as derived): fields that share no
bit position keep their clamped values in the OR of their contributions, and every bit in no field is 0. -/
def Obligations.DisjointFieldsComposeByOr : Prop :=
  ∀ fs : List FieldValue,
    (∀ f ∈ fs, f.off + f.wid ≤ 64) →
    fs.Pairwise (fun f g => ∀ k, ¬ ((f.off ≤ k ∧ k < f.off + f.wid) ∧ (g.off ≤ k ∧ k < g.off + g.wid))) →
      orFields fs < 2 ^ 64 ∧
      (∀ f ∈ fs, extract (orFields fs) f.off f.wid = nearest (2 ^ f.wid - 1) f.value) ∧
      ∀ k, (∀ f ∈ fs, k < f.off ∨ f.off + f.wid ≤ k) → (orFields fs).testBit k = false

/-- 40_bitfield.md section 3, field replacement (R118, which the spec marks as derived). -/
def Obligations.InsertReplacesOneField : Prop :=
  ∀ (width w off wid : Nat) (v : Int), off + wid ≤ width → w < 2 ^ width →
    insert width w off wid v < 2 ^ width ∧
    extract (insert width w off wid v) off wid = nearest (2 ^ wid - 1) v ∧
    ∀ k, (k < off ∨ off + wid ≤ k) → (insert width w off wid v).testBit k = w.testBit k

/-! The text and the Face Code unit (30_encoding.md, 41_facecode.md). -/

/-- R78, R79 with the ASCII codes of R43: the sixteen lowercase digits and the six upper-case letters have
their values, no other byte is a hex digit, and `hexdig` is lowercase always. -/
def Obligations.HexDigitsHaveTheirValues : Prop :=
  (∀ n < 10, hexval (BitVec.ofNat 8 (0x30 + n)) = some n) ∧
  (∀ n < 6, hexval (BitVec.ofNat 8 (0x61 + n)) = some (10 + n) ∧ hexval (BitVec.ofNat 8 (0x41 + n)) = some (10 + n)) ∧
  (∀ c : Byte, hexval c ≠ none →
    (0x30 ≤ c.toNat ∧ c.toNat ≤ 0x39) ∨ (0x41 ≤ c.toNat ∧ c.toNat ≤ 0x46) ∨ (0x61 ≤ c.toNat ∧ c.toNat ≤ 0x66)) ∧
  (∀ n < 10, hexdig n = BitVec.ofNat 8 (0x30 + n)) ∧
  (∀ n < 6, hexdig (10 + n) = BitVec.ofNat 8 (0x61 + n))

/-- R131: the mark is removed at most once, and the response is BAD_LENGTH exactly where what remains is not
64 characters, whatever the characters are. -/
def Obligations.FcParseRefusesWrongLength : Prop :=
  ∀ s : State,
    (∀ (c : Byte) (rest : List Byte), (c = charx ∨ c = charX) →
      (exec (.fcParse (char0 :: c :: rest)) s = .next { s with responses := .error .badLength :: s.responses } ↔
        rest.length ≠ 64)) ∧
    (∀ text : List Byte, (∀ c rest, text = char0 :: c :: rest → c ≠ charx ∧ c ≠ charX) →
      (exec (.fcParse text) s = .next { s with responses := .error .badLength :: s.responses } ↔ text.length ≠ 64))

/-- R132: the response is BAD_CHARSET exactly where 64 characters remain and one of them is no hex digit; an
upper-case letter counts as its lower-case one. -/
def Obligations.FcParseRefusesBadCharacter : Prop :=
  ∀ s : State,
    (∀ (c : Byte) (rest : List Byte), (c = charx ∨ c = charX) →
      (exec (.fcParse (char0 :: c :: rest)) s = .next { s with responses := .error .badCharset :: s.responses } ↔
        rest.length = 64 ∧ ∃ b ∈ rest, hexDigitByte b = false)) ∧
    (∀ text : List Byte, (∀ c rest, text = char0 :: c :: rest → c ≠ charx ∧ c ≠ charX) →
      (exec (.fcParse text) s = .next { s with responses := .error .badCharset :: s.responses } ↔
        text.length = 64 ∧ ∃ b ∈ text, hexDigitByte b = false)) ∧
    ∀ text : List Byte, exec (.fcParse text) s = exec (.fcParse (text.map lower)) s

/-- R75: FC.PARSE accepts sixty-four hex digits in either case, alone or after `0x` or `0X`, and nothing
else. -/
def Obligations.FcParseAcceptsExactlyTheInputForm : Prop :=
  ∀ (text : List Byte) (s : State),
    (∃ f, exec (.fcParse text) s = .next { s with responses := .ok (.fcParse f) :: s.responses }) ↔
      ∃ mark ds, text = mark ++ ds ∧ mark ∈ marks ∧ sixtyFourDigits ds

/-- R130, R133, R134 with the layouts R81 to R84: an accepted text answers the fields of its four blocks, and
B3 whole. -/
def Obligations.FcParseReadsEveryField : Prop :=
  ∀ (mark ds : List Byte) (s : State), mark ∈ marks → sixtyFourDigits ds →
    (encode (.fcParse (mark ++ ds))).op = 0b010#3 ∧
    ∃ f : FaceCode,
      exec (.fcParse (mark ++ ds)) s = .next { s with responses := .ok (.fcParse f) :: s.responses } ∧
      (Response.ok (.fcParse f)).status = 0#2 ∧
      (∀ k < 4, blockValue ds k < 2 ^ 64) ∧
      f.app.hair.toNat = bits (blockValue ds 0) 5 0 ∧
      f.app.beard.toNat = bits (blockValue ds 0) 11 6 ∧
      f.app.skin.toNat = bits (blockValue ds 0) 17 12 ∧
      f.app.hairTexture.toNat = bits (blockValue ds 0) 23 18 ∧
      f.app.hairColor.toNat = bits (blockValue ds 0) 29 24 ∧
      f.app.age.toNat = bits (blockValue ds 0) 35 30 ∧
      f.app.skinColor.toNat = bits (blockValue ds 0) 41 36 ∧
      (∀ i < 21, (f.morph.toList.getD i 0).toNat = bits (blockValue ds 1) (3 * i + 2) (3 * i)) ∧
      (∀ i < 21, (f.morph.toList.getD (21 + i) 0).toNat = bits (blockValue ds 2) (3 * i + 2) (3 * i)) ∧
      (f.morph.toList.getD 42 0).toNat = bits (blockValue ds 2) 63 63 ∧
      f.b3.toNat = blockValue ds 3

/-- R135, R137, R138, R139 with the layouts R81 to R84: FC.GENERATE answers OK for any inputs, with 66
characters: `0x` and 64 lowercase digits whose blocks hold each field's clamped input, 0 in every bit of no
field, and B3 = 0. -/
def Obligations.FcGenerateWritesEveryField : Prop :=
  ∀ (morph : Vector (Port Signed64) 43) (app : AppAttrs (Port Signed64)) (s : State),
    (encode (.fcGenerate morph app)).op = 0b011#3 ∧
    ∃ ds : List Byte,
      exec (.fcGenerate morph app) s =
        .next { s with responses := .ok (.fcGenerate ([char0, charx] ++ ds)) :: s.responses } ∧
      (Response.ok (.fcGenerate ([char0, charx] ++ ds))).status = 0#2 ∧
      ds.length = 64 ∧ (∀ c ∈ ds, c ∈ hexDigits) ∧
      bits (blockValue ds 0) 5 0 = nearest 63 (presented app.hair) ∧
      bits (blockValue ds 0) 11 6 = nearest 63 (presented app.beard) ∧
      bits (blockValue ds 0) 17 12 = nearest 63 (presented app.skin) ∧
      bits (blockValue ds 0) 23 18 = nearest 63 (presented app.hairTexture) ∧
      bits (blockValue ds 0) 29 24 = nearest 63 (presented app.hairColor) ∧
      bits (blockValue ds 0) 35 30 = nearest 63 (presented app.age) ∧
      bits (blockValue ds 0) 41 36 = nearest 63 (presented app.skinColor) ∧
      bits (blockValue ds 0) 63 42 = 0 ∧
      (∀ i < 21, bits (blockValue ds 1) (3 * i + 2) (3 * i) = nearest 7 (presented (morph.toList.getD i noValue))) ∧
      bits (blockValue ds 1) 63 63 = 0 ∧
      (∀ i < 21, bits (blockValue ds 2) (3 * i + 2) (3 * i) = nearest 7 (presented (morph.toList.getD (21 + i) noValue))) ∧
      bits (blockValue ds 2) 63 63 = nearest 1 (presented (morph.toList.getD 42 noValue)) ∧
      blockValue ds 3 = 0

/-- R136: an absent input contributes the value 0, whatever its value port carries; with every input absent
the text is `0x` and 64 `0` characters. -/
def Obligations.FcGenerateTakesAbsentInputsAsZero : Prop :=
  (∀ (m m' : Vector (Port Signed64) 43) (a a' : AppAttrs (Port Signed64)) (s : State),
    (∀ i < 43, presented (m.toList.getD i noValue) = presented (m'.toList.getD i noValue)) →
    (∀ k < 7, presented (attrAt a k) = presented (attrAt a' k)) →
      exec (.fcGenerate m a) s = exec (.fcGenerate m' a') s) ∧
  ∀ (m : Vector (Port Signed64) 43) (a : AppAttrs (Port Signed64)) (s : State),
    (∀ i < 43, (m.toList.getD i noValue).present = false) → (∀ k < 7, (attrAt a k).present = false) →
      exec (.fcGenerate m a) s =
        .next { s with responses := .ok (.fcGenerate ([char0, charx] ++ List.replicate 64 char0)) :: s.responses }

/-- R137: the morphs 0..41 are clamped to 0..7, morph 42 to 0..1, each attribute to 0..63: inputs with the
same clamped values give the same text. -/
def Obligations.FcGenerateSeesClampedInputsOnly : Prop :=
  ∀ (m m' : Vector (Port Signed64) 43) (a a' : AppAttrs (Port Signed64)) (s : State),
    (∀ i < 42, nearest 7 (presented (m.toList.getD i noValue)) = nearest 7 (presented (m'.toList.getD i noValue))) →
    nearest 1 (presented (m.toList.getD 42 noValue)) = nearest 1 (presented (m'.toList.getD 42 noValue)) →
    (∀ k < 7, nearest 63 (presented (attrAt a k)) = nearest 63 (presented (attrAt a' k))) →
      exec (.fcGenerate m a) s = exec (.fcGenerate m' a') s

/-- 41_facecode.md section 3, round trip A (R141, which the spec marks as derived): parsing what FC.GENERATE
emits gives the inputs, each clamped into its domain, and B3 = 0. -/
def Obligations.ParseOfGenerateGivesClampedInputs : Prop :=
  ∀ (morph : Vector (Port Signed64) 43) (app : AppAttrs (Port Signed64)) (s t : State),
    ∃ (text : List Byte) (f : FaceCode),
      exec (.fcGenerate morph app) s = .next { s with responses := .ok (.fcGenerate text) :: s.responses } ∧
      exec (.fcParse text) t = .next { t with responses := .ok (.fcParse f) :: t.responses } ∧
      (∀ i < 42, (f.morph.toList.getD i 0).toNat = nearest 7 (presented (morph.toList.getD i noValue))) ∧
      (f.morph.toList.getD 42 0).toNat = nearest 1 (presented (morph.toList.getD 42 noValue)) ∧
      (∀ k < 7, (attrAt f.app k).toNat = nearest 63 (presented (attrAt app k))) ∧
      f.b3 = 0

/-- 41_facecode.md section 3, round trip B (R142, which the spec marks as derived): a text whose B3, B0 bits
63:42 and B1 bit 63 are 0 is generated again from what FC.PARSE answers, in lower case and with `0x`. -/
def Obligations.GenerateOfParseGivesCanonicalText : Prop :=
  ∀ (mark ds : List Byte) (s t : State), mark ∈ marks → sixtyFourDigits ds →
    blockValue ds 3 = 0 → bits (blockValue ds 0) 63 42 = 0 → bits (blockValue ds 1) 63 63 = 0 →
    ∃ f : FaceCode,
      exec (.fcParse (mark ++ ds)) s = .next { s with responses := .ok (.fcParse f) :: s.responses } ∧
      exec (.fcGenerate (morphInputs f) (attrInputs f)) t =
        .next { t with responses := .ok (.fcGenerate ([char0, charx] ++ ds.map lower)) :: t.responses }

/-- 41_facecode.md section 3, what does not survive (R143, which the spec marks as derived): the spec's text
with bits set in B3 and in no field parses to zeros and to that B3, and generates zeros. -/
def Obligations.UnusedBitsDoNotSurvive : Prop :=
  ∀ s : State,
    let text := hex16 0xfffffc0000000000 ++ hex16 0x8000000000000000 ++ hex16 0 ++ hex16 0x123456789abcdef0
    ∃ f : FaceCode,
      exec (.fcParse text) s = .next { s with responses := .ok (.fcParse f) :: s.responses } ∧
      f.b3 = 0x123456789abcdef0 ∧ (∀ i < 43, f.morph.toList.getD i 0 = 0) ∧ (∀ k < 7, attrAt f.app k = 0) ∧
      exec (.fcGenerate (morphInputs f) (attrInputs f)) s =
        .next { s with responses := .ok (.fcGenerate ([char0, charx] ++ List.replicate 64 char0)) :: s.responses }

/-- 41_facecode.md section 3, bit isolation (R144, which the spec marks as derived): one input positive and
every other one 0 or absent decode to that one field non-zero and all others 0. -/
def Obligations.OneInputSetsOneField : Prop :=
  ∀ (morph : Vector (Port Signed64) 43) (app : AppAttrs (Port Signed64)) (s t : State) (i : Nat), i < 50 →
    (∀ j < 43, (0 < presented (morph.toList.getD j noValue) ↔ j = i) ∧ 0 ≤ presented (morph.toList.getD j noValue)) →
    (∀ k < 7, (0 < presented (attrAt app k) ↔ 43 + k = i) ∧ 0 ≤ presented (attrAt app k)) →
    ∃ (text : List Byte) (f : FaceCode),
      exec (.fcGenerate morph app) s = .next { s with responses := .ok (.fcGenerate text) :: s.responses } ∧
      exec (.fcParse text) t = .next { t with responses := .ok (.fcParse f) :: t.responses } ∧
      (∀ j < 43, f.morph.toList.getD j 0 ≠ 0 ↔ j = i) ∧ (∀ k < 7, attrAt f.app k ≠ 0 ↔ 43 + k = i)

/-- 41_facecode.md section 3, canonical form (R146, which the spec marks as derived): FC.PARSE answers the
same for a text, for it with its mark removed or added, and for it in any mixture of letter case. -/
def Obligations.FcParseIgnoresMarkAndCase : Prop :=
  ∀ (mark mark' ds ds' : List Byte) (s : State), mark ∈ marks → mark' ∈ marks →
    sixtyFourDigits ds → sixtyFourDigits ds' → ds.map lower = ds'.map lower →
      exec (.fcParse (mark ++ ds)) s = exec (.fcParse (mark' ++ ds')) s

/-! The Character Record unit (20_memory.md, 42_charrecord.md). -/

/-- R10, R44: a read of 1, 2 or 4 bytes is the little-endian unsigned integer of those bytes, and a write of
it puts the same bytes there and changes no other. -/
def Obligations.MemoryPrimitivesAreLittleEndian : Prop :=
  (∀ (buf : List Byte) (off : Nat),
    memRead buf off 1 = (buf.getD off 0).toNat ∧
    memRead buf off 2 = (buf.getD off 0).toNat + 2 ^ 8 * (buf.getD (off + 1) 0).toNat ∧
    memRead buf off 4 = (buf.getD off 0).toNat + 2 ^ 8 * (buf.getD (off + 1) 0).toNat +
      2 ^ 16 * (buf.getD (off + 2) 0).toNat + 2 ^ 24 * (buf.getD (off + 3) 0).toNat) ∧
  ∀ (buf : List Byte) (off n v a : Nat), off + n ≤ buf.length → v < 2 ^ (8 * n) →
    memRead (memWrite buf off n v) off n = v ∧ (memWrite buf off n v).length = buf.length ∧
    (∀ k < n, ((memWrite buf off n v).getD (off + k) 0).toNat = bits v (8 * k + 7) (8 * k)) ∧
    ((a < off ∨ off + n ≤ a) → (memWrite buf off n v).getD a 0 = buf.getD a 0)

/-- R161, R172: a record buffer or a template shorter than 89 bytes gives SHORT_BUFFER, whatever it holds
and whatever the overrides are, and a longer one never does. -/
def Obligations.ShortBufferIsRefused : Prop :=
  ∀ (buf : List Byte) (ov : Overrides) (s : State),
    (buf.length < 89 →
      exec (.crRead buf) s = .next { s with responses := .error .shortBuffer :: s.responses } ∧
      exec (.crWrite buf ov) s = .next { s with responses := .error .shortBuffer :: s.responses }) ∧
    (89 ≤ buf.length →
      (∃ r, exec (.crRead buf) s = .next { s with responses := .ok (.crRead r) :: s.responses } ∧ r.raw = buf) ∧
      ∃ b, exec (.crWrite buf ov) s = .next { s with responses := .ok (.crWrite b) :: s.responses })

/-- R160 to R168: CR.READ of a buffer of at least 89 bytes answers every field from its own offset, the name
as far as its bytes exist, and the whole buffer. -/
def Obligations.CrReadDeliversEveryField : Prop :=
  ∀ (buf : List Byte) (s : State), 89 ≤ buf.length →
    (encode (.crRead buf)).op = 0b100#3 ∧
    ∃ r : CharacterRecord,
      exec (.crRead buf) s = .next { s with responses := .ok (.crRead r) :: s.responses } ∧
      (Response.ok (.crRead r)).status = 0#2 ∧
      r.nameLength = buf.getD 0 0 ∧
      r.nlen = min (buf.getD 0 0).toNat (buf.length - 4) ∧
      r.name.length = r.nlen ∧ (∀ j < r.nlen, r.name.getD j 0 = buf.getD (4 + j) 0) ∧
      r.sex = buf.getD 5 0 ∧
      r.banner.toNat = (buf.getD 9 0).toNat + 2 ^ 8 * (buf.getD 10 0).toNat +
        2 ^ 16 * (buf.getD 11 0).toNat + 2 ^ 24 * (buf.getD 12 0).toNat ∧
      r.hairstyle = buf.getD 13 0 ∧ r.skin = buf.getD 14 0 ∧
      r.hairColor.toNat = (buf.getD 16 0).toNat &&& 0x3F ∧
      r.age.toNat = (((buf.getD 16 0).toNat >>> 6) &&& 0x3) ||| (((buf.getD 17 0).toNat &&& 0xF) <<< 2) ∧
      (∀ j < 11, r.appearance.toList.getD j 0 = buf.getD (21 + j) 0) ∧
      r.raw = buf

/-- R176, R178 with the clamps of R173: without a name override, each single-byte field, the banner and the
appearance bytes are written clamped where their override is present and stay where it is absent. -/
def Obligations.CrWriteStoresClampedFields : Prop :=
  ∀ (template : List Byte) (ov : Overrides) (s : State), 89 ≤ template.length → ov.name.present = false →
    (encode (.crWrite template ov)).op = 0b101#3 ∧
    ∃ newbuf : List Byte,
      exec (.crWrite template ov) s = .next { s with responses := .ok (.crWrite newbuf) :: s.responses } ∧
      (Response.ok (.crWrite newbuf)).status = 0#2 ∧
      (newbuf.getD 5 0).toNat = stored ov.sex 255 (template.getD 5 0).toNat ∧
      (newbuf.getD 13 0).toNat = stored ov.hairstyle 255 (template.getD 13 0).toNat ∧
      (newbuf.getD 14 0).toNat = stored ov.skin 255 (template.getD 14 0).toNat ∧
      (∀ k < 4, newbuf.getD (9 + k) 0 =
        if ov.banner.present then
          BitVec.ofNat 8 (bits (nearest (2 ^ 32 - 1) ov.banner.value.toInt) (8 * k + 7) (8 * k))
        else template.getD (9 + k) 0) ∧
      (∀ j < 11, newbuf.getD (21 + j) 0 =
        if ov.appearance.present then ov.appearance.value.toList.getD j 0 else template.getD (21 + j) 0)

/-- 42_charrecord.md section 2, `age` and `hair_color` writes in byte form (R177, which the spec marks as
derived): each changes its own bits of bytes 16 and 17 alone. -/
def Obligations.CrWriteAgeAndHairColorInBytes : Prop :=
  ∀ (template : List Byte) (ov : Overrides) (s : State), 89 ≤ template.length → ov.name.present = false →
    ∃ newbuf : List Byte,
      exec (.crWrite template ov) s = .next { s with responses := .ok (.crWrite newbuf) :: s.responses } ∧
      (newbuf.getD 16 0).toNat % 64 = stored ov.hairColor 63 ((template.getD 16 0).toNat % 64) ∧
      (newbuf.getD 16 0).toNat / 64 =
        (if ov.age.present then nearest 63 ov.age.value.toInt % 4 else (template.getD 16 0).toNat / 64) ∧
      (newbuf.getD 17 0).toNat % 16 =
        (if ov.age.present then nearest 63 ov.age.value.toInt / 4 else (template.getD 17 0).toNat % 16) ∧
      (newbuf.getD 17 0).toNat / 16 = (template.getD 17 0).toNat / 16

/-- R179: the new buffer has the template's length, every bit that no present override writes is the
template's, for any overrides, and with none present the new buffer is the template. -/
def Obligations.CrWriteKeepsEverythingElse : Prop :=
  ∀ (template : List Byte) (ov : Overrides) (s : State), 89 ≤ template.length →
    ∃ newbuf : List Byte,
      exec (.crWrite template ov) s = .next { s with responses := .ok (.crWrite newbuf) :: s.responses } ∧
      newbuf.length = template.length ∧
      (∀ a k, ¬ writesBit template ov a k → (newbuf.getD a 0).getLsbD k = (template.getD a 0).getLsbD k) ∧
      ((∀ a k, ¬ writesBit template ov a k) → newbuf = template)

/-- R174: a name override sets byte 0 to the number of name bytes that fit and writes those bytes as given
from offset 4 on, in every bit that no other present override writes; padding, and the bytes of a longer previous name, stay. -/
def Obligations.CrWriteStoresTheName : Prop :=
  ∀ (template : List Byte) (ov : Overrides) (s : State), 89 ≤ template.length → nameFits ov.name.value = true →
    ov.name.present = true →
    let others : Overrides := { ov with name := ⟨false, []⟩ }
    let n := min ov.name.value.length (template.length - 4)
    ∃ newbuf : List Byte,
      exec (.crWrite template ov) s = .next { s with responses := .ok (.crWrite newbuf) :: s.responses } ∧
      newbuf.length = template.length ∧
      (newbuf.getD 0 0).toNat = n ∧
      (∀ j k, j < n → ¬ writesBit template others (4 + j) k →
        (newbuf.getD (4 + j) 0).getLsbD k = (ov.name.value.getD j 0).getLsbD k) ∧
      ∀ a k, a ≠ 0 → (a < 4 ∨ 4 + n ≤ a) → ¬ writesBit template others a k →
        (newbuf.getD a 0).getLsbD k = (template.getD a 0).getLsbD k

/-- R175: the result is that of one of the two settings of WR_NAME_ORDER; with NAME_FIRST the present
fixed-offset overrides win every contested byte, bit by bit (the name keeps the bits of bytes 16 and 17 that no
present override writes), with NAME_LAST the name wins; the settings agree on every byte outside the name, and on the whole buffer for a request that is not contested. -/
def Obligations.CrWriteUnderBothNameOrders : Prop :=
  ∀ (template : List Byte) (ov : Overrides), 89 ≤ template.length →
    ∃ first last : List Byte,
      writeRecord (paramsWith .nameFirst) template ov = .ok first ∧
      writeRecord (paramsWith .nameLast) template ov = .ok last ∧
      ((∀ s, exec (.crWrite template ov) s = .next { s with responses := .ok (.crWrite first) :: s.responses }) ∨
        (∀ s, exec (.crWrite template ov) s = .next { s with responses := .ok (.crWrite last) :: s.responses })) ∧
      (contested template ov = false → first = last) ∧
      (∀ a, a < 4 ∨ 4 + writtenName template ov ≤ a → first.getD a 0 = last.getD a 0) ∧
      (ov.name.present = true → nameFits ov.name.value = true →
        (first.getD 0 0).toNat = writtenName template ov ∧ (last.getD 0 0).toNat = writtenName template ov) ∧
      (ov.sex.present = true → (first.getD 5 0).toNat = nearest 255 ov.sex.value.toInt) ∧
      (ov.hairstyle.present = true → (first.getD 13 0).toNat = nearest 255 ov.hairstyle.value.toInt) ∧
      (ov.skin.present = true → (first.getD 14 0).toNat = nearest 255 ov.skin.value.toInt) ∧
      (ov.banner.present = true → memRead first 9 4 = nearest (2 ^ 32 - 1) ov.banner.value.toInt) ∧
      (ov.hairColor.present = true → extract (memRead first 16 2) 0 6 = nearest 63 ov.hairColor.value.toInt) ∧
      (ov.age.present = true → extract (memRead first 16 2) 6 6 = nearest 63 ov.age.value.toInt) ∧
      (ov.appearance.present = true → ∀ j < 11, first.getD (21 + j) 0 = ov.appearance.value.toList.getD j 0) ∧
      (ov.name.present = true →
        ∀ j < writtenName template ov, last.getD (4 + j) 0 = ov.name.value.getD j 0) ∧
      (∀ j k, j < writtenName template ov → ¬ writesBit template { ov with name := ⟨false, []⟩ } (4 + j) k →
        (first.getD (4 + j) 0).getLsbD k = (ov.name.value.getD j 0).getLsbD k)

/-- 42_charrecord.md section 3, read after write (R180, which the spec marks as derived), for a request that
is not contested: every present override reads back at its clamped value; an absent fixed-offset field that
no written name byte reaches reads as in the template; so does an absent name, in every bit that no present
fixed-offset override writes. -/
def Obligations.ReadAfterWriteGivesTheOverrides : Prop :=
  ∀ (template : List Byte) (ov : Overrides) (s t : State), 89 ≤ template.length → nameFits ov.name.value = true →
    contested template ov = false →
    ∃ (newbuf : List Byte) (r old : CharacterRecord),
      exec (.crWrite template ov) s = .next { s with responses := .ok (.crWrite newbuf) :: s.responses } ∧
      exec (.crRead newbuf) t = .next { t with responses := .ok (.crRead r) :: t.responses } ∧
      exec (.crRead template) t = .next { t with responses := .ok (.crRead old) :: t.responses } ∧
      (ov.name.present = true → r.nlen = writtenName template ov ∧ r.nameLength.toNat = r.nlen ∧
        r.name = ov.name.value.take r.nlen) ∧
      (ov.name.present = false → r.nameLength = old.nameLength ∧ r.nlen = old.nlen ∧
        r.name.length = old.name.length ∧
        ∀ j k, j < r.nlen → ¬ writesBit template ov (4 + j) k →
          (r.name.getD j 0).getLsbD k = (old.name.getD j 0).getLsbD k) ∧
      (writtenName template ov < 2 ∨ ov.sex.present = true → r.sex.toNat = stored ov.sex 255 old.sex.toNat) ∧
      (writtenName template ov < 6 ∨ ov.banner.present = true →
        r.banner.toNat = stored ov.banner (2 ^ 32 - 1) old.banner.toNat) ∧
      (writtenName template ov < 10 ∨ ov.hairstyle.present = true →
        r.hairstyle.toNat = stored ov.hairstyle 255 old.hairstyle.toNat) ∧
      (writtenName template ov < 11 ∨ ov.skin.present = true → r.skin.toNat = stored ov.skin 255 old.skin.toNat) ∧
      (writtenName template ov < 13 ∨ ov.hairColor.present = true →
        r.hairColor.toNat = stored ov.hairColor 63 old.hairColor.toNat) ∧
      (writtenName template ov < 13 ∨ ov.age.present = true → r.age.toNat = stored ov.age 63 old.age.toNat) ∧
      (ov.appearance.present = true → r.appearance = ov.appearance.value) ∧
      (writtenName template ov < 18 → ov.appearance.present = false → r.appearance = old.appearance)

/-- 42_charrecord.md section 3, lossless re-serialisation (R182, which the spec marks as derived): writing
back every field as read gives the same buffer, for any byte content, and the name too where it fits, under
either name order. -/
def Obligations.WritingWhatWasReadChangesNothing : Prop :=
  ∀ (buf : List Byte) (s : State) (withName : Bool), 89 ≤ buf.length →
    ∃ r : CharacterRecord,
      exec (.crRead buf) s = .next { s with responses := .ok (.crRead r) :: s.responses } ∧
      ((withName = true → r.nameLength.toNat ≤ buf.length - 4) →
        let ov : Overrides :=
          { name := ⟨withName, r.name⟩, sex := asInput r.sex, banner := asInput r.banner,
            hairstyle := asInput r.hairstyle, skin := asInput r.skin, age := asInput r.age,
            hairColor := asInput r.hairColor, appearance := ⟨true, r.appearance⟩ }
        exec (.crWrite buf ov) s = .next { s with responses := .ok (.crWrite buf) :: s.responses } ∧
        ∀ order, writeRecord (paramsWith order) buf ov = .ok buf)

/-- 42_charrecord.md section 3, copy independence (R181, which the spec marks as derived), with R29: the
buffer a CR.WRITE delivers does not depend on any earlier request or response, so two requests with one
template answer what each answers alone. -/
def Obligations.SequentialWritesAreIndependent : Prop :=
  ∀ (template : List Byte) (ov ov' : Overrides) (s : State), 89 ≤ template.length →
    ∃ b b' : List Byte,
      exec (.crWrite template ov) s = .next { s with responses := .ok (.crWrite b) :: s.responses } ∧
      exec (.crWrite template ov') s = .next { s with responses := .ok (.crWrite b') :: s.responses } ∧
      ∀ t, exec (.crWrite template ov) s = .next t →
        exec (.crWrite template ov') t =
          .next { s with responses := .ok (.crWrite b') :: .ok (.crWrite b) :: s.responses }
end

