-- ==== Sys2Proof/Laws/Ops.lean ====
section
/-! SUPPORT. One lemma per shared operation over numbers, bits and byte sequences, saying once what it
does. -/

namespace Sys2Proof.Machine

/-! Parameters (R6). -/

@[simp] theorem params_sexMax : Config.params.sexMax = 255 := rfl
@[simp] theorem params_skinMax : Config.params.skinMax = 255 := rfl
@[simp] theorem params_hairstyleMax : Config.params.hairstyleMax = 255 := rfl
@[simp] theorem params_bannerMax : Config.params.bannerMax = 0xFFFFFFFF := rfl
@[simp] theorem params_fcPrefixAnycase : Config.params.fcPrefixAnycase = true := rfl

/-! Numbers and bits (R7, R8). -/

theorem mask_eq (w : Nat) : mask w = 2 ^ w - 1 := by simp [mask, Nat.one_shiftLeft]

theorem mask_lt (w : Nat) : mask w < 2 ^ w := by
  have := Nat.two_pow_pos w
  rw [mask_eq]; omega

/-- `clamp` is the nearest point of the interval. -/
theorem clamp_eq_max_min {lo hi : Int} (h : lo ≤ hi) (v : Int) : clamp v lo hi = max lo (min v hi) := by
  unfold clamp; split <;> (try split) <;> omega

theorem clamp_mem {lo hi : Int} (h : lo ≤ hi) (v : Int) : lo ≤ clamp v lo hi ∧ clamp v lo hi ≤ hi := by
  rw [clamp_eq_max_min h]; omega

theorem clamp_of_mem {v lo hi : Int} (h1 : lo ≤ v) (h2 : v ≤ hi) : clamp v lo hi = v := by
  unfold clamp; split <;> (try split) <;> omega

/-- The clamped value that `pack` shifts fits the field. -/
theorem clamp_mask_toNat_lt (w : Nat) (v : Int) : (clamp v 0 (mask w)).toNat < 2 ^ w := by
  have h := clamp_mem (Int.natCast_nonneg (mask w)) v
  have := mask_lt w
  omega

theorem testBit_mask (w k : Nat) : (mask w).testBit k = decide (k < w) := by
  rw [mask_eq, Nat.testBit_two_pow_sub_one]

theorem bits_lt (v hi lo : Nat) : bits v hi lo < 2 ^ (hi - lo + 1) := Nat.mod_lt _ (Nat.two_pow_pos _)

theorem testBit_bits (v hi lo k : Nat) :
    (bits v hi lo).testBit k = (decide (k < hi - lo + 1) && v.testBit (k + lo)) := by
  simp [bits, Nat.testBit_mod_two_pow, Nat.testBit_div_two_pow]

/-! The BitField unit (R110, R111, R118). -/

/-- `extract` is the arithmetic form of R110. -/
theorem extract_eq (b off wid : Nat) : extract b off wid = b / 2 ^ off % 2 ^ wid := by
  simp [extract, mask_eq, Nat.and_two_pow_sub_one_eq_mod, Nat.shiftRight_eq_div_pow]

theorem testBit_extract (b off wid k : Nat) :
    (extract b off wid).testBit k = (decide (k < wid) && b.testBit (off + k)) := by
  simp [extract, testBit_mask, Nat.testBit_shiftRight, Bool.and_comm]

/-- A field is below its range's end (R114). -/
theorem extract_lt (b off wid : Nat) : extract b off wid < 2 ^ wid := by
  rw [extract_eq]; exact Nat.mod_lt _ (Nat.two_pow_pos _)

theorem extract_eq_bits (b off : Nat) {wid : Nat} (h : 0 < wid) : extract b off wid = bits b (off + wid - 1) off := by
  rw [extract_eq, bits]; congr 2; omega

theorem pack_eq (off wid : Nat) (v : Int) : pack off wid v = (clamp v 0 (mask wid)).toNat * 2 ^ off :=
  Nat.shiftLeft_eq _ _

theorem testBit_pack (off wid : Nat) (v : Int) (k : Nat) :
    (pack off wid v).testBit k = (decide (off ≤ k) && (clamp v 0 (mask wid)).toNat.testBit (k - off)) := by
  simp [pack, Nat.testBit_shiftLeft]

theorem orFields_nil : orFields [] = 0 := rfl

theorem orFields_cons (f : FieldValue) (fs : List FieldValue) :
    orFields (f :: fs) = pack f.off f.wid f.value ||| orFields fs := rfl

theorem testBit_orFields (fs : List FieldValue) (k : Nat) :
    (orFields fs).testBit k = fs.any (fun f => (pack f.off f.wid f.value).testBit k) := by
  induction fs with
  | nil => simp [orFields]
  | cons f fs ih => simp [orFields_cons, Nat.testBit_or, ih]

theorem testBit_insert (width w off wid : Nat) (v : Int) (k : Nat) :
    (insert width w off wid v).testBit k =
      ((w.testBit k && (decide (k < width) != (decide (off ≤ k) && decide (k - off < wid)))) ||
        (pack off wid v).testBit k) := by
  simp [insert, Nat.testBit_or, Nat.testBit_and, Nat.testBit_xor, testBit_mask, Nat.testBit_shiftLeft]

/-! Ports (R24 to R26). -/

@[simp] theorem toList_tabulate {α : Type} (n : Nat) (f : Nat → α) :
    (tabulate n f).toList = (List.range n).map f := rfl

@[simp] theorem getElem_tabulate {α : Type} (n : Nat) (f : Nat → α) (i : Nat) (h : i < n) :
    (tabulate n f)[i] = f i := by
  simp [tabulate]

@[simp] theorem applyIfPresent_absent {α β : Type} {p : Port α} (h : p.present = false) (f : α → β → β) (x : β) :
    applyIfPresent p f x = x := by
  simp [applyIfPresent, h]

@[simp] theorem applyIfPresent_present {α β : Type} {p : Port α} (h : p.present = true) (f : α → β → β) (x : β) :
    applyIfPresent p f x = f p.value x := by
  simp [applyIfPresent, h]

/-! Byte sequences (R9, R10). -/

theorem byteAt_eq_getElem {buf : List Byte} {i : Nat} (h : i < buf.length) : byteAt buf i = buf[i] := by
  simp [byteAt, h]

@[simp] theorem length_writeBytes (bs buf : List Byte) (off : Nat) : (writeBytes buf off bs).length = buf.length := by
  induction bs generalizing buf off with
  | nil => rfl
  | cons b bs ih => simp [writeBytes, ih]

/-- All `writeBytes` does: the bytes from `off` on are `bs`, every other byte is as before. -/
theorem byteAt_writeBytes (bs buf : List Byte) (off a : Nat) (h : off + bs.length ≤ buf.length) :
    byteAt (writeBytes buf off bs) a =
      if off ≤ a ∧ a < off + bs.length then byteAt bs (a - off) else byteAt buf a := by
  induction bs generalizing buf off with
  | nil => rw [writeBytes, if_neg (by simp)]
  | cons b bs ih =>
    simp only [List.length_cons] at h ⊢
    rw [writeBytes, ih _ _ (by simp; omega)]
    by_cases h1 : off + 1 ≤ a ∧ a < off + 1 + bs.length
    · rw [if_pos h1, if_pos (by omega)]
      obtain ⟨d, rfl⟩ : ∃ d, a = off + 1 + d := ⟨a - (off + 1), by omega⟩
      have e1 : off + 1 + d - (off + 1) = d := by omega
      have e2 : off + 1 + d - off = d + 1 := by omega
      simp [byteAt, e1, e2]
    · rw [if_neg h1]
      by_cases h2 : a = off
      · subst h2
        rw [if_pos (by omega)]
        simp [byteAt, show a < buf.length by omega]
      · rw [if_neg (by omega)]
        simp [byteAt, Ne.symm h2]

@[simp] theorem length_leBytes (n v : Nat) : (leBytes n v).length = n := by simp [leBytes]

theorem byteAt_leBytes {n k : Nat} (v : Nat) (h : k < n) :
    byteAt (leBytes n v) k = BitVec.ofNat 8 (bits v (8 * k + 7) (8 * k)) := by
  simp [byteAt, leBytes, h]

@[simp] theorem length_memWrite (buf : List Byte) (off n v : Nat) : (memWrite buf off n v).length = buf.length :=
  length_writeBytes _ _ _

/-- All `memWrite` does (R10): byte `off+k` is bits `8k+7:8k` of the value, every other byte is as before. -/
theorem byteAt_memWrite (buf : List Byte) (off n v a : Nat) (h : off + n ≤ buf.length) :
    byteAt (memWrite buf off n v) a =
      if off ≤ a ∧ a < off + n then BitVec.ofNat 8 (bits v (8 * (a - off) + 7) (8 * (a - off))) else byteAt buf a := by
  rw [memWrite, byteAt_writeBytes _ _ _ _ (by simpa using h), length_leBytes]
  split
  · exact byteAt_leBytes v (by omega)
  · rfl

/-- A two-byte read (R10, R44). -/
theorem memRead_two (buf : List Byte) (off : Nat) :
    memRead buf off 2 = (byteAt buf off).toNat + 2 ^ 8 * (byteAt buf (off + 1)).toNat := by
  have h : memRead buf off 2 = 2 ^ 0 * (byteAt buf off).toNat + (2 ^ 8 * (byteAt buf (off + 1)).toNat + 0) := rfl
  rw [h]; omega

/-- A four-byte read (R10, R44). -/
theorem memRead_four (buf : List Byte) (off : Nat) :
    memRead buf off 4 = (byteAt buf off).toNat + 2 ^ 8 * (byteAt buf (off + 1)).toNat +
      2 ^ 16 * (byteAt buf (off + 2)).toNat + 2 ^ 24 * (byteAt buf (off + 3)).toNat := by
  have h : memRead buf off 4 = 2 ^ 0 * (byteAt buf off).toNat + (2 ^ 8 * (byteAt buf (off + 1)).toNat +
      (2 ^ 16 * (byteAt buf (off + 2)).toNat + (2 ^ 24 * (byteAt buf (off + 3)).toNat + 0))) := rfl
  rw [h]; omega

@[simp] theorem length_writeByteField (off : Nat) (hi : BitVec 8) (v : Signed64) (out : List Byte) :
    (writeByteField off hi v out).length = out.length := length_memWrite _ _ _ _

@[simp] theorem length_writeBanner (hi : BitVec 32) (v : Signed64) (out : List Byte) :
    (writeBanner hi v out).length = out.length := length_memWrite _ _ _ _

@[simp] theorem length_writePackedField (off wid : Nat) (v : Signed64) (out : List Byte) :
    (writePackedField off wid v out).length = out.length := length_memWrite _ _ _ _

@[simp] theorem length_writeAppearance (bytes : Vector Byte 11) (out : List Byte) :
    (writeAppearance bytes out).length = out.length := length_writeBytes _ _ _

@[simp] theorem length_writeName (name out : List Byte) : (writeName name out).length = out.length := by
  simp [writeName]

theorem length_applyIfPresent {α : Type} (p : Port α) (f : α → List Byte → List Byte)
    (h : ∀ v x, (f v x).length = x.length) (x : List Byte) : (applyIfPresent p f x).length = x.length := by
  unfold applyIfPresent; split <;> simp [h]

@[simp] theorem length_writeFixed (p : Params) (ov : Overrides) (out : List Byte) :
    (writeFixed p ov out).length = out.length := by
  simp [writeFixed, length_applyIfPresent]

@[simp] theorem length_writeNameWhen (o : NameOrder) (p : Params) (ov : Overrides) (out : List Byte) :
    (writeNameWhen o p ov out).length = out.length := by
  unfold writeNameWhen; split <;> simp

/-- The new buffer has the template's length. -/
@[simp] theorem length_newBuffer (p : Params) (template : List Byte) (ov : Overrides) :
    (newBuffer p template ov).length = template.length := by
  simp [newBuffer]

/-- A one-byte read. -/
theorem memRead_one (buf : List Byte) (off : Nat) : memRead buf off 1 = (byteAt buf off).toNat := by
  have h : memRead buf off 1 = 2 ^ 0 * (byteAt buf off).toNat + 0 := rfl
  rw [h]; omega

/-- A byte of a slice is the byte of the buffer. -/
theorem byteAt_slice (buf : List Byte) (off : Nat) {n j : Nat} (h : j < n) :
    byteAt (slice buf off n) j = byteAt buf (off + j) := by
  simp [slice, byteAt, h]

/-- All a one-byte override does (R173, R176). -/
theorem byteAt_writeByteField (off : Nat) (hi : BitVec 8) (v : Signed64) (out : List Byte) (a : Nat)
    (h : off < out.length) :
    byteAt (writeByteField off hi v out) a =
      if a = off then BitVec.ofNat 8 (clamp (signedValue v) 0 hi.toNat).toNat else byteAt out a := by
  rw [writeByteField, byteAt_memWrite _ _ _ _ _ (by omega)]
  by_cases h1 : a = off
  · subst h1
    rw [if_pos (by omega), if_pos rfl]
    apply BitVec.eq_of_toNat_eq
    simp [bits]
  · rw [if_neg (by omega), if_neg h1]

/-- All the banner override does (R173, R176). -/
theorem byteAt_writeBanner (hi : BitVec 32) (v : Signed64) (out : List Byte) (a : Nat) (h : 13 ≤ out.length) :
    byteAt (writeBanner hi v out) a =
      if 9 ≤ a ∧ a < 13 then
        BitVec.ofNat 8 (bits (clamp (signedValue v) 0 hi.toNat).toNat (8 * (a - 9) + 7) (8 * (a - 9)))
      else byteAt out a :=
  byteAt_memWrite _ _ _ _ _ (by omega)

/-- All the appearance override does (R178). -/
theorem byteAt_writeAppearance (bytes : Vector Byte 11) (out : List Byte) (a : Nat) (h : 32 ≤ out.length) :
    byteAt (writeAppearance bytes out) a =
      if 21 ≤ a ∧ a < 32 then byteAt bytes.toList (a - 21) else byteAt out a := by
  rw [writeAppearance, byteAt_writeBytes _ _ _ _ (by simp; omega)]; simp

/-- All the name override does (R174). -/
theorem byteAt_writeName (name out : List Byte) (a : Nat) (h : 4 ≤ out.length) :
    byteAt (writeName name out) a =
      if a = 0 then BitVec.ofNat 8 (fittingName name.length out.length)
      else if 4 ≤ a ∧ a < 4 + fittingName name.length out.length then byteAt name (a - 4)
      else byteAt out a := by
  have hn : fittingName name.length out.length ≤ name.length ∧ fittingName name.length out.length ≤ out.length - 4 := by
    unfold fittingName; omega
  unfold writeName
  generalize fittingName name.length out.length = n at hn ⊢
  have hl : (name.take n).length = n := by simp; omega
  rw [byteAt_writeBytes _ _ _ _ (by rw [hl]; simp; omega), hl]
  by_cases h0 : a = 0
  · subst h0
    rw [if_neg (by omega), if_pos rfl]
    simp [byteAt, show 0 < out.length by omega]
  · rw [if_neg h0]
    split
    · simp [byteAt, show a - 4 < n by omega]
    · simp [byteAt, Ne.symm h0]

/-! The text (R75, R78, R79). -/

/-- A hex digit is below 16. -/
theorem hexval_lt {c : Byte} {n : Nat} (h : hexval c = some n) : n < 16 := by
  unfold hexval at h
  split at h
  · simp only [Option.some.injEq] at h; omega
  · split at h
    · simp only [Option.some.injEq] at h; omega
    · split at h
      · simp only [Option.some.injEq] at h; omega
      · cases h

/-- The machine removes `0x` and `0X`. -/
theorem stripMark_marked {c : Byte} (h : c = charx ∨ c = charX) (rest : List Byte) :
    stripMark Config.params (char0 :: c :: rest) = rest := by
  rcases h with rfl | rfl <;> simp [stripMark, isHexMark]

/-- A text with no mark stays whole. -/
theorem stripMark_unmarked {text : List Byte} (h : ∀ c rest, text = char0 :: c :: rest → c ≠ charx ∧ c ≠ charX) :
    stripMark Config.params text = text := by
  match text, h with
  | [], _ => rfl
  | [_], _ => rfl
  | c0 :: c1 :: rest, h =>
    simp only [stripMark]
    split
    · rename_i hm
      simp only [isHexMark, params_fcPrefixAnycase, Bool.and_eq_true, beq_iff_eq, Bool.or_eq_true, Bool.true_and] at hm
      obtain ⟨rfl, hm⟩ := hm
      have := h c1 rest rfl
      tauto
    · rfl

@[simp] theorem length_hex16 (b : Nat) : (hex16 b).length = 16 := by simp [hex16]

@[simp] theorem length_generate (morph : Vector (Port Signed64) 43) (app : AppAttrs (Port Signed64)) :
    (generate morph app).length = 66 := by
  simp [generate]

theorem length_hexDigits : hexDigits.length = 16 := rfl

/-- A rendered digit is one of the sixteen. -/
theorem hexdig_mem {n : Nat} (h : n < 16) : hexdig n ∈ hexDigits := by
  rw [hexdig, List.getD_eq_getElem _ _ (by simpa [length_hexDigits] using h)]
  exact List.getElem_mem _

end Sys2Proof.Machine
end

