-- ==== Sys2Proof/Laws/PerInstr.lean ====
section
/-! SUPPORT. A fact about every operation, one lemma per constructor: its request carries its own select
code, which is none of the reserved ones (R71, R72). -/

namespace Sys2Proof.Laws.SelectsItself

def Statement (i : Instr) : Prop := (encode i).op = selectCode i ∧ (selectCode i).toNat < 6

theorem bfExtract (block : Block) (off : BitVec 6) (wid : BitVec 7) : Statement (.bfExtract block off wid) := by
  simp [Statement, encode, selectCode, blankRequest]

theorem bfPack (off : BitVec 6) (wid : BitVec 7) (value : Signed64) : Statement (.bfPack off wid value) := by
  simp [Statement, encode, selectCode, blankRequest]

theorem fcParse (text : List Byte) : Statement (.fcParse text) := by
  simp [Statement, encode, selectCode, blankRequest]

theorem fcGenerate (morph : Vector (Port Signed64) 43) (app : AppAttrs (Port Signed64)) :
    Statement (.fcGenerate morph app) := by
  simp [Statement, encode, selectCode, blankRequest]

theorem crRead (buf : List Byte) : Statement (.crRead buf) := by
  simp [Statement, encode, selectCode, blankRequest]

theorem crWrite (template : List Byte) (overrides : Overrides) : Statement (.crWrite template overrides) := by
  simp [Statement, encode, selectCode, blankRequest]

end Sys2Proof.Laws.SelectsItself
end

