-- ==== Sys2Proof/Laws/State.lean ====
section
/-! SUPPORT. One lemma per field per update of the state, and what the fetch answers. -/

namespace Sys2Proof.Machine

@[simp] theorem reset_requests : State.reset.requests = [] := rfl
@[simp] theorem reset_responses : State.reset.responses = [] := rfl

@[simp] theorem deliver_requests (r : Response) (s : State) : (deliver r s).requests = s.requests := rfl
@[simp] theorem deliver_responses (r : Response) (s : State) : (deliver r s).responses = r :: s.responses := rfl

@[simp] theorem present_requests (q : Request) (s : State) : (present q s).requests = q :: s.requests := rfl
@[simp] theorem present_responses (q : Request) (s : State) : (present q s).responses = s.responses := rfl

@[simp] theorem issue_requests (q : Request) (s : State) : (issue q s).requests = s.requests ++ [q] := rfl
@[simp] theorem issue_responses (q : Request) (s : State) : (issue q s).responses = s.responses := rfl

@[simp] theorem resetCore_requests (s : State) : (resetCore s).requests = s.requests.drop 1 := rfl
@[simp] theorem resetCore_responses (s : State) : (resetCore s).responses = s.responses := rfl

/-- The fetch answers nothing where no request is presented. -/
theorem fetch_nil {s : State} (h : s.requests = []) : fetch s = none := by
  simp [fetch, h]

/-- The fetch takes the presented request and leaves the responses. -/
theorem fetch_cons {s : State} {q : Request} {rest : List Request} (h : s.requests = q :: rest) :
    fetch s = some (q, { s with requests := rest }) := by
  simp [fetch, h]

/-- All a step can do: idle, answer the presented request, or refuse it. -/
theorem step_cases (s : State) :
    (s.requests = [] ∧ step s = .next s) ∨
      (∃ q rest i, s.requests = q :: rest ∧ decode q = .ok i ∧ step s = exec i { s with requests := rest }) ∨
      (∃ q rest e, s.requests = q :: rest ∧ decode q = .error e ∧ step s = .refused (refusalOf e)) := by
  cases h : s.requests with
  | nil => exact .inl ⟨rfl, by simp [step, fetch_nil h]⟩
  | cons q rest =>
    cases hd : decode q with
    | ok i => exact .inr (.inl ⟨q, rest, i, rfl, hd, by simp [step, fetch_cons h, hd]⟩)
    | error e => exact .inr (.inr ⟨q, rest, e, rfl, hd, by simp [step, fetch_cons h, hd]⟩)

@[simp] theorem conclude_ok (x : Results) (s : State) : conclude (.ok x) s = .next (deliver (.ok x) s) := rfl

@[simp] theorem conclude_error (k : ErrorKind) (s : State) : conclude (.error k) s = .next (deliver (.error k) s) := rfl

/-- How an operation ends: it delivers one response and changes nothing else. -/
theorem conclude_eq (r : Except ErrorKind Results) (s : State) :
    conclude r s = .next (deliver (match r with | .ok x => .ok x | .error k => .error k) s) := by
  cases r <;> rfl

end Sys2Proof.Machine
end

