-- ==== Sys2Proof/Tests/Slice0.lean ====
section
/-! SUPPORT. Tests. Expected values are those of spec/95_test_vectors.md (the row is named beside each test) or
are written out by hand from the rules named. The `witness_` theorems show, for each statement that has
hypotheses, a concrete case that meets all of them, at the ends of its ranges. -/

namespace Sys2Proof.Tests

open Sys2Proof.Machine

/-! Helpers. -/

/-- The ASCII byte of a hex digit (20_memory.md R43), written apart from the model's own table. -/
def digit (n : Nat) : Byte := BitVec.ofNat 8 (if n < 10 then 0x30 + n else 0x57 + n)

/-- The 64 digits of four blocks, most significant first. -/
def digits (b0 b1 b2 b3 : Nat) : List Byte :=
  [b0, b1, b2, b3].flatMap (fun b => (List.range 16).map (fun j => digit (b / 16 ^ (15 - j) % 16)))

/-- `n` copies of the digit `7`, the `dⁿ` of part V2.4. -/
def sevens (n : Nat) : List Byte := List.replicate n 0x37

/-- The response to one operation on the state after reset, with no request left behind. -/
def answer (i : Instr) : Option Response :=
  match exec i State.reset with
  | .next s => if s.requests = [] then s.responses.head? else none
  | _ => none

/-- The present input of value `v`. -/
def given (v : Int) : Port Signed64 := ⟨true, BitVec.ofInt 64 v⟩

/-- An absent input whose value port is not 0. -/
def absent : Port Signed64 := ⟨false, 77⟩

/-- 43 morph inputs, absent but for those listed. -/
def morphs (l : List (Nat × Int)) : Vector (Port Signed64) 43 :=
  tabulate 43 (fun i => match l.lookup i with | some v => given v | none => absent)

/-- Seven attribute inputs, absent but for those listed. -/
def attrs (l : List (Nat × Int)) : AppAttrs (Port Signed64) :=
  attrsOf (fun k => match l.lookup k with | some v => given v | none => absent)

/-- Buffer A of part V3.1. -/
def bufA : List Byte := (List.range 100).map (BitVec.ofNat 8)

/-- Buffer K of part V3.1. -/
def bufK : List Byte :=
  [0x04, 0x00, 0x00, 0x00, 0x41, 0x62, 0x63, 0x64, 0x00, 0xff, 0xff, 0xff, 0xff, 0x03, 0x20, 0xaa] ++
  [0x80, 0xc1, 0x11, 0x22, 0x33, 0xa0, 0xa1, 0xa2, 0xa3, 0xa4, 0xa5, 0xa6, 0xa7, 0xa8, 0xa9, 0xaa] ++
  (List.range 57).map (fun i => BitVec.ofNat 8 (7 * (i + 32) + 1))

/-- Eighty-nine bytes. -/
def buf89 : List Byte := List.replicate 89 0x5a

/-- Eleven bytes of value `b`. -/
def eleven (b : Byte) : Vector Byte 11 := tabulate 11 (fun _ => b)

/-- No override present, the value ports not 0. -/
def noOverride : Overrides :=
  { name := ⟨false, [0x41]⟩, sex := absent, banner := absent, hairstyle := absent, skin := absent, age := absent,
    hairColor := absent, appearance := ⟨false, eleven 9⟩ }

/-- Every fixed-offset override present, as in row Y14. -/
def overridesY14 : Overrides :=
  { name := ⟨false, []⟩, sex := given 0, banner := given 7, hairstyle := given 9, skin := given 48, age := given 25,
    hairColor := given 12, appearance := ⟨true, eleven 0⟩ }

/-- A state with one request presented, another behind it, and a response delivered. -/
def busy (q : Request) : State := ⟨[q, blankRequest 0b011#3], [.error .badLength]⟩

/-! Decoding: for each operation a request written out from the select codes of R71 and the ports of R24. -/

theorem test_decode_bfExtract :
    decode { blankRequest 0b000#3 with extract := ⟨0x0000000180000041, 30, 6⟩ } =
      .ok (.bfExtract 0x0000000180000041 30 6) := by decide

theorem test_decode_bfPack :
    decode { blankRequest 0b001#3 with pack := ⟨0, 3, 9⟩ } = .ok (.bfPack 0 3 9) := by decide

theorem test_decode_fcParse :
    decode { blankRequest 0b010#3 with parse := ⟨2, [0x30, 0x78]⟩ } = .ok (.fcParse [0x30, 0x78]) := by decide

theorem test_decode_fcGenerate :
    decode { blankRequest 0b011#3 with generate := ⟨morphs [(0, 9)], attrs [(5, 6)]⟩ } =
      .ok (.fcGenerate (morphs [(0, 9)]) (attrs [(5, 6)])) := by decide

theorem test_decode_crRead :
    decode { blankRequest 0b100#3 with read := ⟨3, [1, 2, 3]⟩ } = .ok (.crRead [1, 2, 3]) := by decide

theorem test_decode_crWrite :
    decode { blankRequest 0b101#3 with
      write := ⟨2, [7, 8], true, 1, [0x58], given 1, given 2, given 3, given 4, given 5, given 6, ⟨true, eleven 7⟩⟩ } =
      .ok (.crWrite [7, 8] ⟨⟨true, [0x58]⟩, given 1, given 2, given 3, given 4, given 5, given 6, ⟨true, eleven 7⟩⟩) := by
  decide

/-- R72: 110 and 111 select nothing. -/
theorem test_decode_reserved :
    decode (blankRequest 0b110#3) = .error (.reservedSelect 0b110) ∧
    decode (blankRequest 0b111#3) = .error (.reservedSelect 0b111) := by decide

/-- R71: the words of the opcode table. -/
theorem test_table_words :
    (List.range 6).map (fun w => (decodeTableWord 8 w).map selectCode) =
      [some 0b000#3, some 0b001#3, some 0b010#3, some 0b011#3, some 0b100#3, some 0b101#3] ∧
    decodeTableWord 8 6 = none ∧ decodeTableWord 8 7 = none := by decide

/-! Well-formedness: the one check, and what decoding refuses. -/

/-- R24: the length port of the name has 8 bits. -/
theorem test_name_of_256_bytes_is_ill_formed :
    WellFormed (.crWrite buf89 { noOverride with name := ⟨true, List.replicate 256 0x4e⟩ }) = false ∧
    WellFormed (.crWrite buf89 { noOverride with name := ⟨true, List.replicate 255 0x4e⟩ }) = true := by
  simp only [WellFormed, nameFits, List.length_replicate]; decide

/-- R24: each length port says how many bytes its sequence has. -/
theorem test_mismatched_lengths_are_unpresentable :
    decode { blankRequest 0b010#3 with parse := ⟨3, [0x30, 0x78]⟩ } = .error .unpresentable ∧
    decode { blankRequest 0b100#3 with read := ⟨2, [1, 2, 3]⟩ } = .error .unpresentable ∧
    decode { blankRequest 0b101#3 with write := { writePortsOf [7, 8] noOverride with len := 3 } } =
      .error .unpresentable ∧
    decode { blankRequest 0b101#3 with write := { writePortsOf [7, 8] noOverride with nlen := 0 } } =
      .error .unpresentable := by decide

/-! One step. -/

/-- The first operation after reset, a word of the table: FC.GENERATE with nothing present (row G1). -/
theorem test_step_of_table_word :
    (match step (State.reset.withFetchWord 8 0b011) with
      | .next s => decide (s = ⟨[], [.ok (.fcGenerate ([0x30, 0x78] ++ List.replicate 64 0x30))]⟩)
      | _ => false) = true := by decide

/-- R72, R211: a reserved select is refused. -/
theorem test_step_of_reserved_word :
    (match step (State.reset.withFetchWord 8 0b110) with
      | .refused r => decide (r = .reservedSelect 0b110)
      | _ => false) = true := by decide

/-! BF.EXTRACT (V1.1). -/

/-- Rows E3 and E6. -/
theorem test_bfExtract_field_and_past_bit_63 :
    answer (.bfExtract 0x0000000180000041 30 6) = some (.ok (.bfExtract 6)) ∧
    answer (.bfExtract 0xffffffffffffffff 60 8) = some (.ok (.bfExtract 15)) := by decide

/-- Rows E7, E10 and E13. -/
theorem test_bfExtract_width_0_and_wide :
    answer (.bfExtract 0xdeadbeef01234567 17 0) = some (.ok (.bfExtract 0)) ∧
    answer (.bfExtract 0x123456789abcdef0 4 64) = some (.ok (.bfExtract 0x123456789abcdef)) ∧
    answer (.bfExtract 0x123456789abcdef0 63 127) = some (.ok (.bfExtract 0)) := by decide

/-! BF.PACK (V1.2). -/

/-- Rows K3, K7 and K8. -/
theorem test_bfPack_clamps :
    answer (.bfPack 0 3 8) = some (.ok (.bfPack 7)) ∧
    answer (.bfPack 3 3 (-1)) = some (.ok (.bfPack 0)) ∧
    answer (.bfPack 0 3 0x8000000000000000) = some (.ok (.bfPack 0)) := by decide

/-- Rows K9 and K19. -/
theorem test_bfPack_wider_than_a_block :
    answer (.bfPack 60 8 255) = some (.ok (.bfPack 0xff000000000000000)) ∧
    answer (.bfPack 63 127 0x7fffffffffffffff) = some (.ok (.bfPack 0x3fffffffffffffff8000000000000000)) := by decide

/-- The insert instances of part V1.3. -/
theorem test_insert :
    insert 16 0xc180 6 6 45 = 0xcb40 ∧ insert 16 0x1110 6 6 64 = 0x1fd0 ∧ insert 16 0x1110 6 6 (-3) = 0x1010 := by decide

/-! FC.PARSE (V2.3, V2.4). -/

/-- Row T1, with no mark; 43 morphs, 7 attributes, b3. -/
theorem test_fcParse_T1 :
    answer (.fcParse (digits 0x000002379950f285 0x00000000001f58d1 0xc000000000000177 0)) =
      some (.ok (.fcParse
        { morph := ⟨⟨[1, 2, 3, 4, 5, 6, 7, 0, 0, 0, 0, 0, 0, 0, 0, 0, 0, 0, 0, 0, 0,
            7, 6, 5, 0, 0, 0, 0, 0, 0, 0, 0, 0, 0, 0, 0, 0, 0, 0, 0, 0, 4, 1]⟩, rfl⟩
          app := ⟨5, 10, 15, 20, 25, 30, 35⟩, b3 := 0 })) := by decide

/-- Rows X3, X8, X13 and X6. -/
theorem test_fcParse_refusals :
    answer (.fcParse ([0x30, 0x78] ++ sevens 62)) = some (.error .badLength) ∧
    answer (.fcParse (sevens 62 ++ [0x67])) = some (.error .badLength) ∧
    answer (.fcParse ([0x30, 0x78, 0x30, 0x78] ++ sevens 62)) = some (.error .badCharset) ∧
    answer (.fcParse (sevens 63 ++ [0x67])) = some (.error .badCharset) := by decide

/-! FC.GENERATE (V2.1). -/

/-- Row G5. -/
theorem test_fcGenerate_G5 :
    answer (.fcGenerate
        (morphs [(0, 1), (1, 2), (2, 3), (3, 4), (4, 5), (5, 6), (6, 7), (21, 7), (22, 6), (23, 5), (41, 4), (42, 1)])
        (attrs [(0, 5), (1, 10), (2, 15), (3, 20), (4, 25), (5, 30), (6, 35)])) =
      some (.ok (.fcGenerate ([0x30, 0x78] ++
        digits 0x000002379950f285 0x00000000001f58d1 0xc000000000000177 0))) := by decide

/-- Property S6 and row G9: 9 as 7, 5 as 1, the largest value as the field's maximum. -/
theorem test_fcGenerate_clamps :
    answer (.fcGenerate (morphs [(0, 9), (42, 5)]) (attrs [(6, 2 ^ 63 - 1), (0, -1)])) =
      some (.ok (.fcGenerate ([0x30, 0x78] ++ digits 0x000003f000000000 7 0x8000000000000000 0))) := by decide

/-! CR.READ (V3.2). -/

/-- Row D2. -/
theorem test_crRead_D2 :
    answer (.crRead bufK) = some (.ok (.crRead
      { nameLength := 4, nlen := 4, name := [0x41, 0x62, 0x63, 0x64], sex := 98, banner := 0xffffffff, hairstyle := 3,
        skin := 32, hairColor := 0, age := 6,
        appearance := ⟨⟨[0xa0, 0xa1, 0xa2, 0xa3, 0xa4, 0xa5, 0xa6, 0xa7, 0xa8, 0xa9, 0xaa]⟩, rfl⟩, raw := bufK })) := by
  decide

/-- Rows D6 and D3: a name past the end, and 88 bytes. -/
theorem test_crRead_long_name_and_short_buffer :
    (match answer (.crRead (bufK.set 0 0xc8)) with
      | some (.ok (.crRead r)) => decide (r.nameLength = 200 ∧ r.nlen = 85 ∧ r.name = bufK.drop 4)
      | _ => false) = true ∧
    answer (.crRead (bufA.take 88)) = some (.error .shortBuffer) := by decide

/-! CR.WRITE (V3.3, V3.4). -/

/-- Row Y14 in full. -/
theorem test_crWrite_Y14 :
    answer (.crWrite bufK overridesY14) = some (.ok (.crWrite
      ([0x04, 0x00, 0x00, 0x00, 0x41, 0x00, 0x63, 0x64, 0x00, 0x07, 0x00, 0x00, 0x00, 0x09, 0x30, 0xaa] ++
       [0x4c, 0xc6, 0x11, 0x22, 0x33, 0x00, 0x00, 0x00, 0x00, 0x00, 0x00, 0x00, 0x00, 0x00, 0x00, 0x00] ++
       bufK.drop 32))) := by decide

/-- Rows Y7 and Y8: the contested write under each name order. -/
theorem test_crWrite_name_orders :
    writeRecord (paramsWith .nameFirst) bufK { noOverride with name := ⟨true, [0x5a, 0x6f, 0x65]⟩, sex := given 1 } =
      .ok ((((bufK.set 0 3).set 4 0x5a).set 5 0x01).set 6 0x65) ∧
    writeRecord (paramsWith .nameLast) bufK { noOverride with name := ⟨true, [0x5a, 0x6f, 0x65]⟩, sex := given 1 } =
      .ok ((((bufK.set 0 3).set 4 0x5a).set 5 0x6f).set 6 0x65) := by decide

/-! Witnesses: the hypotheses of each statement that has some, met by a concrete case. -/

theorem witness_StepRunsTheDecodedOperation :
    (busy (encode (.crRead bufK))).requests = encode (.crRead bufK) :: [blankRequest 0b011#3] ∧
    decode (encode (.crRead bufK)) = .ok (.crRead bufK) := by decide

theorem witness_StepWithoutRequestIsIdle : (State.mk [] [.error .badLength]).requests = [] := rfl

theorem witness_ReservedSelectIsRefused :
    ((busy (blankRequest 0b110#3)).requests = blankRequest 0b110#3 :: [blankRequest 0b011#3] ∧
      (blankRequest 0b110#3).op = 0b110#3) ∧
    ((busy (blankRequest 0b111#3)).requests = blankRequest 0b111#3 :: [blankRequest 0b011#3] ∧
      (blankRequest 0b111#3).op = 0b111#3) := by decide

theorem witness_MismatchedLengthPortIsRefused :
    (∀ q : Request, (busy q).requests = q :: [blankRequest 0b011#3]) ∧
    (let q := { blankRequest 0b010#3 with parse := ⟨63, sevens 64⟩ };
      q.op = 0b010#3 ∧ q.parse.text.length ≠ q.parse.tlen) ∧
    (let q := { blankRequest 0b100#3 with read := ⟨90, buf89⟩ };
      q.op = 0b100#3 ∧ q.read.buf.length ≠ q.read.len) ∧
    (let q := { blankRequest 0b101#3 with write := { writePortsOf buf89 noOverride with len := 88 } };
      q.op = 0b101#3 ∧ q.write.template.length ≠ q.write.len) ∧
    (let q := { blankRequest 0b101#3 with write := { writePortsOf buf89 noOverride with nlen := 0 } };
      q.op = 0b101#3 ∧ q.write.name.length ≠ q.write.nlen.toNat) := ⟨fun _ => rfl, by decide⟩

theorem witness_SelectCodesNameTheSixOperations :
    (encode (.bfExtract 1 63 127)).op = 0b000#3 ∧ (encode (.bfPack 63 127 (-1))).op = 0b001#3 ∧
    (let q := encode (.fcParse (sevens 64)); q.op = 0b010#3 ∧ q.parse.tlen = q.parse.text.length) ∧
    (encode (.fcGenerate (morphs []) (attrs []))).op = 0b011#3 ∧
    (let q := encode (.crRead buf89); q.op = 0b100#3 ∧ q.read.len = q.read.buf.length) ∧
    (let q := encode (.crWrite buf89 noOverride);
      q.op = 0b101#3 ∧ q.write.len = q.write.template.length ∧ q.write.nlen.toNat = q.write.name.length) ∧
    (blankRequest 0b110#3).op = 0b110#3 ∧ (blankRequest 0b111#3).op = 0b111#3 := by decide

/-- One well-formed operation of each kind, the name at its greatest length. -/
theorem witness_DecodeOfEncode :
    WellFormed (.bfExtract 1 63 127) = true ∧ WellFormed (.bfPack 63 127 (-1)) = true ∧
    WellFormed (.fcParse []) = true ∧ WellFormed (.fcGenerate (morphs []) (attrs [])) = true ∧
    WellFormed (.crRead []) = true ∧
    WellFormed (.crWrite [] { noOverride with name := ⟨true, List.replicate 255 0x4e⟩ }) = true := by
  simp only [WellFormed, nameFits, List.length_replicate]; decide

theorem witness_EncodeOfDecoded :
    decode { blankRequest 0b001#3 with pack := ⟨63, 127, -1⟩, parse := ⟨9, []⟩ } = .ok (.bfPack 63 127 (-1)) := by decide

theorem witness_RunAnswersEachRequestAsIfAlone :
    ∀ i ∈ [Instr.bfPack 0 3 9, .fcParse [], .crWrite buf89 noOverride], WellFormed i = true := by decide

/-- One request behind the abandoned one, and none. -/
theorem witness_ResetAbandonsTheRequestInProgress :
    decode (encode (.bfPack 0 3 9)) = .ok (.bfPack 0 3 9) ∧
    [encode (.bfPack 0 3 9)] = encode (.bfPack 0 3 9) :: [] ∧ ([] : List Request) = [] := by decide

theorem witness_SafeStateStepsToSafeState : (busy (encode (.bfPack 0 3 9))).Safe := by
  intro q h
  simp only [busy, List.mem_cons, List.not_mem_nil, or_false] at h
  rcases h with rfl | rfl <;> decide

theorem witness_StepKeepsResponsesSound :
    (busy (encode (.bfPack 0 3 9))).Sound ∧
    step (busy (encode (.bfPack 0 3 9))) = .next ⟨[blankRequest 0b011#3], [.ok (.bfPack 7), .error .badLength]⟩ := by
  refine ⟨?_, rfl⟩
  intro r h
  simp only [busy, List.mem_singleton] at h
  subst h; rfl

/-- Width 0; a field that ends at bit 63; one that ends past it; widths 64 and more. -/
theorem witness_BfExtractReadsTheField :
    (0 : BitVec 7) = 0 ∧
    ((1 : BitVec 7) ≠ 0 ∧ (63 : BitVec 6).toNat + (1 : BitVec 7).toNat ≤ 64) ∧
    64 < (63 : BitVec 6).toNat + (2 : BitVec 7).toNat ∧
    64 ≤ (64 : BitVec 7).toNat ∧ 64 < (0 : BitVec 6).toNat + (65 : BitVec 7).toNat := by decide

/-- -1 and 0; the greatest value of a 3-bit field and the next one. -/
theorem witness_BfPackClampsAndShifts :
    (-1 : Signed64).toInt < 0 ∧
    (0 ≤ (0 : Signed64).toInt ∧ (0 : Signed64).toInt < 2 ^ (3 : BitVec 7).toNat) ∧
    (0 ≤ (7 : Signed64).toInt ∧ (7 : Signed64).toInt < 2 ^ (3 : BitVec 7).toNat) ∧
    (2 : Int) ^ (3 : BitVec 7).toNat ≤ (8 : Signed64).toInt := by decide

theorem witness_PackGivesTheNearestRepresentableValue : 0 < 2 ^ 3 ∧ 7 < 2 ^ 3 := by decide

/-- Two blocks that agree on bits 4 to 7 only. -/
theorem witness_ExtractDependsOnItsFieldAlone :
    (0xA5F : Block) ≠ 0x05E ∧
    ∀ k, 4 ≤ k → k < min (4 + 4) 64 → (0xA5F : Block).getLsbD k = (0x05E : Block).getLsbD k := by
  refine ⟨by decide, fun k h1 h2 => ?_⟩
  have h : k = 4 ∨ k = 5 ∨ k = 6 ∨ k = 7 := by omega
  rcases h with rfl | rfl | rfl | rfl <;> decide

/-- The top bit, with a value in its range and one out of it. -/
theorem witness_ExtractOfPackIsTheClampedValue :
    63 + 1 ≤ 64 ∧ (0 ≤ (1 : Int) ∧ (1 : Int) < 2 ^ 1) ∧ ¬ ((5 : Int) < 2 ^ 1) := by decide

theorem witness_PackIsZeroOutsideItsField : (2 < 3 ∨ 3 + 3 ≤ 2) ∧ (6 < 3 ∨ 3 + 3 ≤ 6) := by decide

/-- Two adjacent fields, the second ending at bit 63, and a bit in neither. -/
theorem witness_DisjointFieldsComposeByOr :
    let fs : List FieldValue := [⟨0, 32, 5⟩, ⟨33, 31, -1⟩];
    (∀ f ∈ fs, f.off + f.wid ≤ 64) ∧
    fs.Pairwise (fun f g => ∀ k, ¬ ((f.off ≤ k ∧ k < f.off + f.wid) ∧ (g.off ≤ k ∧ k < g.off + g.wid))) ∧
    ∀ f ∈ fs, 32 < f.off ∨ f.off + f.wid ≤ 32 := by
  refine ⟨by decide, ?_, by decide⟩
  simp only [List.pairwise_cons, List.mem_singleton, forall_eq, List.not_mem_nil, false_implies, implies_true,
    List.Pairwise.nil, and_true]
  intro k; omega

theorem witness_InsertReplacesOneField : 6 + 6 ≤ 16 ∧ 0xc180 < 2 ^ 16 ∧ (5 < 6 ∨ 6 + 6 ≤ 5) ∧ (12 < 6 ∨ 6 + 6 ≤ 12) := by
  decide

theorem witness_HexDigitsHaveTheirValues : 9 < 10 ∧ 5 < 6 ∧ hexval 0x46 ≠ none := by decide

/-- After a mark and without one: 63, 64 and 65 characters; the second text begins with `0` and no mark. -/
theorem witness_FcParseRefusesWrongLength :
    ((charX = charx ∨ charX = charX) ∧ (sevens 63).length ≠ 64 ∧ (sevens 65).length ≠ 64 ∧ (sevens 64).length = 64) ∧
    ∀ n ∈ [63, 64, 65], ∀ c rest, char0 :: sevens n = char0 :: c :: rest → c ≠ charx ∧ c ≠ charX := by
  refine ⟨by decide, ?_⟩
  intro n hn c rest h
  simp only [List.mem_cons, List.not_mem_nil, or_false] at hn
  rcases hn with rfl | rfl | rfl <;>
    (simp only [sevens, List.replicate_succ, List.cons.injEq, true_and] at h
     rw [← h.1]
     decide)

theorem witness_FcParseRefusesBadCharacter :
    ((charx = charx ∨ charx = charX) ∧ (sevens 63 ++ [0x67]).length = 64 ∧
      ∃ b ∈ sevens 63 ++ [0x67], hexDigitByte b = false) ∧
    ((0x20 :: sevens 63).length = 64 ∧ (∃ b ∈ 0x20 :: sevens 63, hexDigitByte b = false) ∧
      ∀ c rest, 0x20 :: sevens 63 = char0 :: c :: rest → c ≠ charx ∧ c ≠ charX) := by
  refine ⟨by decide, by decide, by decide, ?_⟩
  intro c rest h
  exact absurd (List.cons.inj h).1 (by decide)

/-- Each mark; digits of both cases. -/
theorem witness_FcParseReadsEveryField :
    ([] ∈ marks ∧ [char0, charx] ∈ marks ∧ [char0, charX] ∈ marks) ∧
    sixtyFourDigits (digits 0x000002379950f285 0 0xc000000000000177 0xffffffffffffffff) ∧
    sixtyFourDigits (List.replicate 64 0x46) := by
  refine ⟨by decide, ⟨by decide, by decide⟩, ⟨by decide, by decide⟩⟩

/-- Absent inputs against present zeros, and all absent with value ports not 0. -/
theorem witness_FcGenerateTakesAbsentInputsAsZero :
    ((∀ i < 43, presented ((morphs []).toList.getD i noValue) = presented ((morphs [(0, 0), (42, 0)]).toList.getD i noValue)) ∧
      ∀ k < 7, presented (attrAt (attrs []) k) = presented (attrAt (attrs [(6, 0)]) k)) ∧
    ((∀ i < 43, ((morphs []).toList.getD i noValue).present = false) ∧ ∀ k < 7, (attrAt (attrs []) k).present = false) := by
  decide

/-- 9 and 7, 5 and 1, 70 and 63, -1 and 0. -/
theorem witness_FcGenerateSeesClampedInputsOnly :
    let m := morphs [(0, 9), (1, -1), (42, 5)];
    let m' := morphs [(0, 7), (1, 0), (42, 1)];
    let a := attrs [(0, 70)];
    let a' := attrs [(0, 63)];
    (∀ i < 42, nearest 7 (presented (m.toList.getD i noValue)) = nearest 7 (presented (m'.toList.getD i noValue))) ∧
    nearest 1 (presented (m.toList.getD 42 noValue)) = nearest 1 (presented (m'.toList.getD 42 noValue)) ∧
    ∀ k < 7, nearest 63 (presented (attrAt a k)) = nearest 63 (presented (attrAt a' k)) := by decide

/-- The source example of part S2: every bit of no field is 0. -/
theorem witness_GenerateOfParseGivesCanonicalText :
    let ds := digits 0x0000000180000041 0x36db79b6db6db6fb 0x7fffff6d77bf36db 0;
    [char0, charX] ∈ marks ∧ sixtyFourDigits ds ∧
    blockValue ds 3 = 0 ∧ bits (blockValue ds 0) 63 42 = 0 ∧ bits (blockValue ds 1) 63 63 = 0 := by
  refine ⟨by decide, ⟨by decide, by decide⟩, by decide, by decide, by decide⟩

/-- The first and the last morph, the first and the last attribute. -/
theorem witness_OneInputSetsOneField :
    ∀ c ∈ [(0, morphs [(0, 7)], attrs []), (42, morphs [(42, 1)], attrs []),
           (43, morphs [], attrs [(0, 63)]), (49, morphs [], attrs [(6, 63)])],
      c.1 < 50 ∧
      (∀ j < 43, (0 < presented (c.2.1.toList.getD j noValue) ↔ j = c.1) ∧ 0 ≤ presented (c.2.1.toList.getD j noValue)) ∧
      ∀ k < 7, (0 < presented (attrAt c.2.2 k) ↔ 43 + k = c.1) ∧ 0 ≤ presented (attrAt c.2.2 k) := by decide

theorem witness_FcParseIgnoresMarkAndCase :
    [] ∈ marks ∧ [char0, charX] ∈ marks ∧
    sixtyFourDigits (List.replicate 64 0x46) ∧ sixtyFourDigits (List.replicate 64 0x66) ∧
    (List.replicate 64 0x46).map lower = (List.replicate 64 0x66).map lower := by
  refine ⟨by decide, by decide, ⟨by decide, by decide⟩, ⟨by decide, by decide⟩, by decide⟩

/-- The last two bytes of a buffer, the largest value, and the bytes beside them. -/
theorem witness_MemoryPrimitivesAreLittleEndian :
    87 + 2 ≤ buf89.length ∧ 0xffff < 2 ^ (8 * 2) ∧ 1 < 2 ∧ (86 < 87 ∨ 87 + 2 ≤ 86) ∧ (89 < 87 ∨ 87 + 2 ≤ 89) := by decide

theorem witness_ShortBufferIsRefused : (buf89.drop 1).length < 89 ∧ ([] : List Byte).length < 89 ∧ 89 ≤ buf89.length := by
  decide

/-- The least length, with a name of 0, 85 and 255 announced bytes. -/
theorem witness_CrReadDeliversEveryField :
    89 ≤ (buf89.set 0 0).length ∧ 89 ≤ (buf89.set 0 85).length ∧ 89 ≤ (buf89.set 0 255).length ∧
    84 < min (255#8).toNat (89 - 4) := by decide

theorem witness_CrWriteStoresClampedFields : 89 ≤ buf89.length ∧ overridesY14.name.present = false ∧
    noOverride.name.present = false := by decide

theorem witness_CrWriteAgeAndHairColorInBytes : 89 ≤ bufK.length ∧ overridesY14.name.present = false := by decide

/-- A bit of byte 17 that an age override does not write, and a request that writes no bit. -/
theorem witness_CrWriteKeepsEverythingElse :
    89 ≤ bufK.length ∧ ¬ writesBit bufK { noOverride with age := given 45 } 17 4 ∧
    ∀ a k, ¬ writesBit bufK noOverride a k := by
  refine ⟨by decide, by simp [writesBit, noOverride, absent, given], fun a k => by simp [writesBit, noOverride, absent]⟩

/-- The empty name, and one that is cut to fill the buffer, with no other override; a byte of it beside a
present `sex`; the bits of bytes 16 and 17 beside a present `age`. -/
theorem witness_CrWriteStoresTheName :
    (∀ n ∈ [0, 86],
      let ov : Overrides := { noOverride with name := ⟨true, List.replicate n 0x4e⟩ };
      89 ≤ buf89.length ∧ nameFits ov.name.value = true ∧ ov.name.present = true) ∧
    (∀ a k, ¬ writesBit buf89 noOverride a k) ∧
    (∀ k, ¬ writesBit buf89 { noOverride with sex := given 1 } (4 + 2) k) ∧
    ¬ writesBit buf89 { noOverride with age := given 1 } (4 + 12) 5 ∧
    ¬ writesBit buf89 { noOverride with age := given 1 } (4 + 13) 4 ∧ 13 < min 86 (buf89.length - 4) ∧
    (3 ≠ 0 ∧ (3 < 4 ∨ 4 + 85 ≤ 3)) := by
  refine ⟨by decide, fun a k => ?_, fun k => ?_, ?_, ?_, by decide, by decide⟩ <;> simp [writesBit, noOverride, absent]

/-- Every override present and a name that reaches all of them; a name of one byte, which reaches none; and the
bits of bytes 16 and 17 that an age override, and that a hair colour override, leaves to the name. -/
theorem witness_CrWriteUnderBothNameOrders :
    let all : Overrides := { overridesY14 with name := ⟨true, List.replicate 28 0x4e⟩ };
    let one : Overrides := { overridesY14 with name := ⟨true, [0x51]⟩ };
    89 ≤ bufK.length ∧ contested bufK all = true ∧ contested bufK one = false ∧
    nameFits all.name.value = true ∧ all.name.present = true ∧ 27 < writtenName bufK all ∧ all.sex.present = true ∧
    all.hairstyle.present = true ∧ all.skin.present = true ∧ all.banner.present = true ∧ all.hairColor.present = true ∧
    all.age.present = true ∧ all.appearance.present = true ∧ (3 < 4 ∨ 4 + writtenName bufK all ≤ 3) ∧
    (¬ writesBit bufK { noOverride with age := given 1 } (4 + 12) 5 ∧
      ¬ writesBit bufK { noOverride with age := given 1 } (4 + 13) 4 ∧
      ¬ writesBit bufK { noOverride with hairColor := given 1 } (4 + 12) 6) := by
  refine ⟨by decide, by decide, by decide, by decide, by decide, by decide, by decide, by decide, by decide, by decide,
    by decide, by decide, by decide, by decide, ?_⟩
  simp [writesBit, noOverride, absent]

/-- Row Y14 with a name of `n` bytes and without the overrides such a name reaches, which it does from 2, 6, 10,
11, 13 and 18 bytes on. -/
def overridesBeyond (n : Nat) : Overrides :=
  { name := ⟨true, List.replicate n 0x4e⟩, sex := ⟨n < 2, 0⟩, banner := ⟨n < 6, 7⟩, hairstyle := ⟨n < 10, 9⟩,
    skin := ⟨n < 11, 48⟩, age := ⟨n < 13, 25⟩, hairColor := ⟨n < 13, 12⟩, appearance := ⟨n < 18, eleven 0⟩ }

/-- A name of the greatest length that meets each clause, every override beyond it present: nothing is
contested. -/
theorem witness_ReadAfterWriteGivesTheOverrides :
    ∀ c ∈ [(1, 2), (5, 6), (9, 10), (10, 11), (12, 13), (17, 18)],
      89 ≤ bufK.length ∧ nameFits (overridesBeyond c.1).name.value = true ∧
      contested bufK (overridesBeyond c.1) = false ∧ (overridesBeyond c.1).name.present = true ∧
      writtenName bufK (overridesBeyond c.1) = c.1 ∧ c.1 < c.2 := by decide

/-- The same names with no other override, so that each clause reads the template's field. -/
theorem witness_ReadAfterWriteGivesTheOverrides_absent_fields :
    ∀ n ∈ [1, 5, 9, 10, 12, 17],
      let ov : Overrides := { noOverride with name := ⟨true, List.replicate n 0x4e⟩ };
      nameFits ov.name.value = true ∧ contested bufK ov = false ∧ writtenName bufK ov = n ∧
      ov.appearance.present = false := by decide

/-- One byte more: an absent override beyond the clause's range leaves the clause, a present one is contested. -/
theorem witness_ReadAfterWriteGivesTheOverrides_next_length :
    ∀ n ∈ [2, 6, 10, 11, 13, 18],
      contested bufK (overridesBeyond n) = false ∧ writtenName bufK (overridesBeyond n) = n ∧
      contested bufK { overridesBeyond (n - 1) with name := ⟨true, List.replicate n 0x4e⟩ } = true := by decide

/-- No name override: row Y14, which writes byte 5 and leaves byte 4 of the name, and 4 bits of byte 17 in a
name of 20 bytes. -/
theorem witness_ReadAfterWriteGivesTheOverrides_absent_name :
    (nameFits overridesY14.name.value = true ∧ contested bufK overridesY14 = false ∧
      overridesY14.name.present = false ∧ overridesY14.appearance.present = true ∧
      0 < fittingName (bufK.getD 0 0).toNat bufK.length ∧
      13 < fittingName ((bufK.set 0 20).getD 0 0).toNat (bufK.set 0 20).length) ∧
    (∀ k, ¬ writesBit bufK overridesY14 (4 + 0) k) ∧ ¬ writesBit (bufK.set 0 20) overridesY14 (4 + 13) 4 := by
  refine ⟨by decide, fun k => ?_, ?_⟩ <;> simp [writesBit, overridesY14, given]

/-- With the name, which fits, and without it. -/
theorem witness_WritingWhatWasReadChangesNothing :
    89 ≤ bufK.length ∧ (bufK.getD 0 0).toNat ≤ bufK.length - 4 ∧ (85#8).toNat ≤ (buf89.set 0 85).length - 4 := by decide

theorem witness_SequentialWritesAreIndependent :
    89 ≤ bufK.length ∧
    ∃ t, exec (.crWrite bufK noOverride) State.reset = .next t := ⟨by decide, _, rfl⟩

end Sys2Proof.Tests
end

/-! PROOFS. The memory primitives of R10: a read of `n + 1` bytes adds one byte to a read of `n`, so a read inside
a written range gives the value's low bytes. -/

namespace Sys2Proof.Machine

@[simp] theorem memRead_zero (buf : List Byte) (off : Nat) : memRead buf off 0 = 0 := rfl

theorem memRead_succ (buf : List Byte) (off n : Nat) :
    memRead buf off (n + 1) = memRead buf off n + 2 ^ (8 * n) * (byteAt buf (off + n)).toNat := by
  simp [memRead, List.range_succ]

/-- Eight bits of a value fill a byte with nothing cut off. -/
theorem toNat_ofNat_bits (v lo : Nat) : (BitVec.ofNat 8 (bits v (lo + 7) lo)).toNat = bits v (lo + 7) lo := by
  have h : bits v (lo + 7) lo < 2 ^ 8 := by simpa using bits_lt v (lo + 7) lo
  rw [BitVec.toNat_ofNat, Nat.mod_eq_of_lt h]

theorem byteAt_memWrite_inside {buf : List Byte} {off n k : Nat} (v : Nat) (h : off + n ≤ buf.length) (hk : k < n) :
    (byteAt (memWrite buf off n v) (off + k)).toNat = bits v (8 * k + 7) (8 * k) := by
  rw [byteAt_memWrite _ _ _ _ _ h, if_pos (by omega), Nat.add_sub_cancel_left, toNat_ofNat_bits]

theorem byteAt_memWrite_outside {buf : List Byte} {off n a : Nat} (v : Nat) (h : off + n ≤ buf.length)
    (ha : a < off ∨ off + n ≤ a) : byteAt (memWrite buf off n v) a = byteAt buf a := by
  rw [byteAt_memWrite _ _ _ _ _ h, if_neg (by omega)]

/-- A value's low `k + 1` bytes are its low `k` bytes and its byte `k` above them. -/
theorem mod_two_pow_byte_succ (v k : Nat) :
    v % 2 ^ (8 * (k + 1)) = v % 2 ^ (8 * k) + 2 ^ (8 * k) * bits v (8 * k + 7) (8 * k) := by
  have hwidth : 8 * k + 7 - 8 * k + 1 = 8 := by omega
  rw [bits, hwidth, Nat.mul_succ, Nat.pow_add, Nat.mod_mul]

/-- Reading `m` of `n` written bytes back gives the low `m` bytes of the value, whatever its size. -/
theorem memRead_memWrite {buf : List Byte} {off n m : Nat} (v : Nat) (h : off + n ≤ buf.length) (hm : m ≤ n) :
    memRead (memWrite buf off n v) off m = v % 2 ^ (8 * m) := by
  induction m with
  | zero => simp [Nat.mod_one]
  | succ k ih =>
    rw [memRead_succ, ih (by omega), byteAt_memWrite_inside v h hm, mod_two_pow_byte_succ]

/-- Settles O40: the reads of 1, 2 and 4 bytes by their equations, the write by what it does inside and outside
its range. -/
theorem memoryPrimitivesAreLittleEndian : Obligations.MemoryPrimitivesAreLittleEndian := by
  refine ⟨fun buf off => ⟨memRead_one buf off, memRead_two buf off, memRead_four buf off⟩, ?_⟩
  intro buf off n v a hfits hv
  have hback : memRead (memWrite buf off n v) off n = v := by
    rw [memRead_memWrite v hfits le_rfl, Nat.mod_eq_of_lt hv]
  exact ⟨hback, length_memWrite buf off n v, fun _ hk => byteAt_memWrite_inside v hfits hk,
    byteAt_memWrite_outside v hfits⟩

end Sys2Proof.Machine

/-! PROOFS. The core has no state of its own (R20): every operation ends in `conclude` with a result that its
request alone fixes. -/

namespace Sys2Proof.Machine

/-- What an operation answers is fixed before the state is looked at (R20). -/
theorem exec_eq_conclude (i : Instr) : ∃ r : Except ErrorKind Results, ∀ s : State, exec i s = conclude r s := by
  cases i with
  | bfExtract block off wid => exact ⟨.ok (.bfExtract _), fun _ => rfl⟩
  | bfPack off wid value => exact ⟨.ok (.bfPack _), fun _ => rfl⟩
  | fcParse text => exact ⟨(parse Config.params text).map .fcParse, fun _ => rfl⟩
  | fcGenerate morph app => exact ⟨.ok (.fcGenerate _), fun _ => rfl⟩
  | crRead buf => exact ⟨(readRecord buf).map .crRead, fun _ => rfl⟩
  | crWrite template ov => exact ⟨(writeRecord Config.params template ov).map .crWrite, fun _ => rfl⟩

/-- Every operation delivers one response, the same for every state. -/
theorem exec_eq_deliver (i : Instr) : ∃ r : Response, ∀ s : State, exec i s = .next (deliver r s) := by
  obtain ⟨result, hexec⟩ := exec_eq_conclude i
  exact ⟨_, fun s => (hexec s).trans (conclude_eq result s)⟩

/-- Settles O10: the operation's end delivers its response, and delivering adds to the responses only. -/
theorem responseDependsOnRequestAlone : Obligations.ResponseDependsOnRequestAlone := exec_eq_deliver

end Sys2Proof.Machine

/-! PROOFS. Signed value ports (R8, R25): the spec's sign extension is the two's-complement reading of a word. -/

namespace Sys2Proof.Machine

/-- `sext` asks whether the pattern is below half the range, `BitVec.toInt` whether its double is below the range;
at width 0 both read the one pattern as 0. -/
theorem sext_toNat {n : Nat} (p : BitVec n) : sext n p.toNat = p.toInt := by
  rw [sext, BitVec.toInt_eq_toNat_cond]
  cases n with
  | zero => simp [BitVec.of_length_zero]
  | succ k =>
    have hhalf : p.toNat < 2 ^ k ↔ 2 * p.toNat < 2 ^ (k + 1) := by rw [Nat.pow_succ]; omega
    simp [hhalf]

theorem signedValue_eq_toInt (p : Signed64) : signedValue p = p.toInt := sext_toNat p

/-- Settles O18: the port's value is `BitVec.toInt`, whose range the library gives. -/
theorem signedPortIsTwosComplement : Obligations.SignedPortIsTwosComplement := by
  intro p
  have hlow : -2 ^ 63 ≤ p.toInt := BitVec.le_toInt p
  have hhigh : p.toInt < 2 ^ 63 := BitVec.toInt_lt
  rw [signedValue_eq_toInt]
  exact ⟨rfl, hlow, Int.le_sub_one_of_lt hhigh⟩

end Sys2Proof.Machine

/-! PROOFS. The select codes (R71, R72): an equation of `decode` per row of the opcode table, and what a step does
with a request that names no operation. -/

namespace Sys2Proof.Machine

theorem decode_bfExtract {q : Request} (hop : q.op = 0b000#3) :
    decode q = .ok (.bfExtract q.extract.block q.extract.off q.extract.wid) := by simp [decode, hop]

theorem decode_bfPack {q : Request} (hop : q.op = 0b001#3) :
    decode q = .ok (.bfPack q.pack.off q.pack.wid q.pack.value) := by simp [decode, hop]

theorem decode_fcParse {q : Request} (hop : q.op = 0b010#3) (hlen : q.parse.tlen = q.parse.text.length) :
    decode q = .ok (.fcParse q.parse.text) := by simp [decode, hop, hlen]

theorem decode_fcGenerate {q : Request} (hop : q.op = 0b011#3) :
    decode q = .ok (.fcGenerate q.generate.morph q.generate.app) := by simp [decode, hop]

theorem decode_crRead {q : Request} (hop : q.op = 0b100#3) (hlen : q.read.len = q.read.buf.length) :
    decode q = .ok (.crRead q.read.buf) := by simp [decode, hop, hlen]

theorem decode_crWrite {q : Request} (hop : q.op = 0b101#3) (hlen : q.write.len = q.write.template.length)
    (hname : q.write.nlen.toNat = q.write.name.length) :
    decode q = .ok (.crWrite q.write.template (overridesOf q.write)) := by simp [decode, hop, hlen, hname]

theorem decode_reserved {q : Request} (hop : q.op = 0b110#3 ∨ q.op = 0b111#3) :
    decode q = .error (.reservedSelect q.op) := by
  rcases hop with hop | hop <;> simp [decode, hop]

/-- A presented request that names no operation is refused, for the reason it does not decode. -/
theorem step_of_decode_error {s : State} {q : Request} {rest : List Request} {e : DecodeError}
    (hreq : s.requests = q :: rest) (hdec : decode q = .error e) : step s = .refused (refusalOf e) := by
  simp [step, fetch_cons hreq, hdec]

/-- Settles O4: a reserved code does not decode, and the refusal carries the code the decoder names. -/
theorem reservedSelectIsRefused : Obligations.ReservedSelectIsRefused :=
  fun _ _ _ hreq hop => step_of_decode_error hreq (decode_reserved hop)

/-- Settles O6: the equation of each row; a reserved code decodes to an error, which is no operation. -/
theorem selectCodesNameTheSixOperations : Obligations.SelectCodesNameTheSixOperations := by
  refine fun q => ⟨decode_bfExtract, decode_bfPack, decode_fcParse, decode_fcGenerate, decode_crRead,
    decode_crWrite, ?_⟩
  intro hop i
  rw [decode_reserved hop]
  nofun

end Sys2Proof.Machine

/-! PROOFS. The hex digits (R78, R79): one equation of `hexval` per range of bytes, and none outside the three. -/

namespace Sys2Proof.Machine

theorem hexval_of_decimal {c : Byte} (hlo : 0x30 ≤ c.toNat) (hhi : c.toNat ≤ 0x39) :
    hexval c = some (c.toNat - 0x30) := if_pos ⟨hlo, hhi⟩

theorem hexval_of_lower {c : Byte} (hlo : 0x61 ≤ c.toNat) (hhi : c.toNat ≤ 0x66) :
    hexval c = some (c.toNat - 0x61 + 10) := by
  rw [hexval, if_neg (by omega), if_pos ⟨hlo, hhi⟩]

theorem hexval_of_upper {c : Byte} (hlo : 0x41 ≤ c.toNat) (hhi : c.toNat ≤ 0x46) :
    hexval c = some (c.toNat - 0x41 + 10) := by
  rw [hexval, if_neg (by omega), if_neg (by omega), if_pos ⟨hlo, hhi⟩]

theorem hexDigitByte_iff (c : Byte) :
    hexDigitByte c = true ↔ (0x30 ≤ c.toNat ∧ c.toNat ≤ 0x39) ∨ (0x41 ≤ c.toNat ∧ c.toNat ≤ 0x46) ∨
      (0x61 ≤ c.toNat ∧ c.toNat ≤ 0x66) := by
  simp only [hexDigitByte, Bool.or_eq_true, Bool.and_eq_true, decide_eq_true_eq]
  tauto

/-- `hexval` is defined exactly on the hex digits. -/
theorem isSome_hexval (c : Byte) : (hexval c).isSome = hexDigitByte c := by
  by_cases hdigit : hexDigitByte c = true
  · rw [hdigit]
    rcases (hexDigitByte_iff c).mp hdigit with ⟨hlo, hhi⟩ | ⟨hlo, hhi⟩ | ⟨hlo, hhi⟩
    · rw [hexval_of_decimal hlo hhi, Option.isSome_some]
    · rw [hexval_of_upper hlo hhi, Option.isSome_some]
    · rw [hexval_of_lower hlo hhi, Option.isSome_some]
  · rw [Bool.eq_false_iff.mpr hdigit]
    rw [hexDigitByte_iff] at hdigit
    rw [hexval, if_neg (by omega), if_neg (by omega), if_neg (by omega), Option.isSome_none]

/-- Settles O27: the three ranges of `hexval` and nothing else; the sixteen entries of `hexdig`'s table. -/
theorem hexDigitsHaveTheirValues : Obligations.HexDigitsHaveTheirValues := by
  have htoNat {n : Nat} (hn : n < 2 ^ 8) : (BitVec.ofNat 8 n).toNat = n := by
    rw [BitVec.toNat_ofNat, Nat.mod_eq_of_lt hn]
  refine ⟨fun n hn => ?decimal, fun n hn => ⟨?lower, ?upper⟩, fun c hc => ?onlyDigits, by decide, by decide⟩
  case decimal =>
    have hcode := htoNat (n := 0x30 + n) (by omega)
    rw [hexval_of_decimal (by omega) (by omega), hcode, Nat.add_sub_cancel_left]
  case lower =>
    have hcode := htoNat (n := 0x61 + n) (by omega)
    rw [hexval_of_lower (by omega) (by omega), hcode, Nat.add_sub_cancel_left, Nat.add_comm]
  case upper =>
    have hcode := htoNat (n := 0x41 + n) (by omega)
    rw [hexval_of_upper (by omega) (by omega), hcode, Nat.add_sub_cancel_left, Nat.add_comm]
  case onlyDigits =>
    rwa [← hexDigitByte_iff, ← isSome_hexval, Option.isSome_iff_ne_none]

end Sys2Proof.Machine

/-! PROOFS. The input form of FC.PARSE (R75): the mark is removed once, and what remains must be 64 hex digits. An
`x` is no hex digit, so no text of 64 digits begins with a mark. -/

namespace Sys2Proof.Machine

theorem stripMark_of_digits {ds : List Byte} (hds : ∀ c ∈ ds, hexDigitByte c = true) :
    stripMark Config.params ds = ds := by
  refine stripMark_unmarked fun c rest htext => ?_
  have hc : hexDigitByte c = true := hds c (by simp [htext])
  constructor
  · rintro rfl; exact absurd hc (by decide)
  · rintro rfl; exact absurd hc (by decide)

/-- Of a mark and 64 digits the digits remain. -/
theorem stripMark_mark_append {mark ds : List Byte} (hmark : mark ∈ marks) (hds : sixtyFourDigits ds) :
    stripMark Config.params (mark ++ ds) = ds := by
  simp only [marks, List.mem_cons, List.not_mem_nil, or_false] at hmark
  rcases hmark with rfl | rfl | rfl
  · exact stripMark_of_digits hds.2
  · exact stripMark_marked (.inl rfl) ds
  · exact stripMark_marked (.inr rfl) ds

/-- Every text is a mark, perhaps the empty one, and what remains when it is removed. -/
theorem exists_mark_append_stripMark (text : List Byte) :
    ∃ mark ∈ marks, text = mark ++ stripMark Config.params text := by
  by_cases hmarked : ∃ c rest, text = char0 :: c :: rest ∧ (c = charx ∨ c = charX)
  · obtain ⟨c, rest, rfl, hc⟩ := hmarked
    rw [stripMark_marked hc]
    refine ⟨[char0, c], ?_, rfl⟩
    rcases hc with rfl | rfl <;> decide
  · rw [stripMark_unmarked fun c rest htext =>
      not_or.mp fun hc => hmarked ⟨c, rest, htext, hc⟩]
    exact ⟨[], by decide, rfl⟩

/-! The three answers of `parse`, the length tested before the characters (R131, R132). -/

/-- The test of R132 fails exactly where every character is a hex digit. -/
theorem any_hexval_isNone_eq_false_iff (ds : List Byte) :
    ds.any (fun c => (hexval c).isNone) = false ↔ ∀ c ∈ ds, hexDigitByte c = true := by
  simp [← isSome_hexval, Option.isSome_iff_ne_none]

theorem parse_of_length_ne {p : Params} {text : List Byte} (hlen : (stripMark p text).length ≠ 64) :
    parse p text = .error .badLength := if_pos hlen

theorem parse_of_bad_character {p : Params} {text : List Byte} (hlen : (stripMark p text).length = 64)
    (hbad : ¬ ∀ c ∈ stripMark p text, hexDigitByte c = true) : parse p text = .error .badCharset := by
  rw [← any_hexval_isNone_eq_false_iff, Bool.not_eq_false] at hbad
  simp only [parse, hlen, hbad, ne_eq, not_true, if_false, if_true]

theorem parse_of_digits {p : Params} {text : List Byte} (hdigits : sixtyFourDigits (stripMark p text)) :
    parse p text = .ok (fieldsOf (blockOf (stripMark p text) 0) (blockOf (stripMark p text) 1)
      (blockOf (stripMark p text) 2) (blockOf (stripMark p text) 3)) := by
  obtain ⟨hlen, hall⟩ := hdigits
  rw [← any_hexval_isNone_eq_false_iff] at hall
  simp only [parse, hlen, hall, ne_eq, not_true, Bool.false_eq_true, if_false]

/-- Only 64 hex digits are accepted. -/
theorem sixtyFourDigits_of_parse_eq_ok {p : Params} {text : List Byte} {f : FaceCode}
    (hparse : parse p text = .ok f) : sixtyFourDigits (stripMark p text) := by
  by_cases hlen : (stripMark p text).length = 64
  · refine ⟨hlen, ?_⟩
    by_contra hbad
    rw [parse_of_bad_character hlen hbad] at hparse
    cases hparse
  · rw [parse_of_length_ne hlen] at hparse
    cases hparse

/-- An operation answers OK with results exactly where it concludes with them. -/
theorem conclude_eq_ok_iff (r : Except ErrorKind Results) (x : Results) (s : State) :
    conclude r s = .next (deliver (.ok x) s) ↔ r = .ok x := by
  cases r <;> simp [deliver]

theorem exec_fcParse (text : List Byte) (s : State) :
    exec (.fcParse text) s = conclude ((parse Config.params text).map .fcParse) s := rfl

/-- FC.PARSE answers OK with fields exactly where `parse` gives them. -/
theorem exec_fcParse_ok_iff (text : List Byte) (f : FaceCode) (s : State) :
    exec (.fcParse text) s = .next (deliver (.ok (.fcParse f)) s) ↔ parse Config.params text = .ok f := by
  rw [exec_fcParse, conclude_eq_ok_iff]
  cases parse Config.params text <;> simp [Except.map]

/-- Settles O30: forwards by the text's mark, backwards since removing the mark leaves the 64 digits. -/
theorem fcParseAcceptsExactlyTheInputForm : Obligations.FcParseAcceptsExactlyTheInputForm := by
  intro text s
  constructor
  · rintro ⟨f, hexec⟩
    have hparse : parse Config.params text = .ok f := (exec_fcParse_ok_iff text f s).mp hexec
    obtain ⟨mark, hmark, htext⟩ := exists_mark_append_stripMark text
    exact ⟨mark, _, htext, hmark, sixtyFourDigits_of_parse_eq_ok hparse⟩
  · rintro ⟨mark, ds, rfl, hmark, hdigits⟩
    have hform : sixtyFourDigits (stripMark Config.params (mark ++ ds)) := by
      rwa [stripMark_mark_append hmark hdigits]
    exact ⟨_, (exec_fcParse_ok_iff _ _ s).mpr (parse_of_digits hform)⟩

end Sys2Proof.Machine

/-! PROOFS. BF.EXTRACT (R110): a block has no bit from 64 up, so the port loses nothing, and a field that reaches
bit 64 is the shifted block whole. -/

namespace Sys2Proof.Machine

theorem block_div_lt (block : Block) {off : Nat} (hoff : off ≤ 64) : block.toNat / 2 ^ off < 2 ^ (64 - off) := by
  rw [Nat.div_lt_iff_lt_mul (Nat.two_pow_pos _), ← Nat.pow_add, Nat.sub_add_cancel hoff]
  exact block.isLt

/-- A field has no more bits than its width, nor than the block has above its offset. -/
theorem extract_block_lt (block : Block) {off : Nat} (hoff : off ≤ 64) (wid : Nat) :
    extract block.toNat off wid < 2 ^ min wid (64 - off) := by
  rcases min_choice wid (64 - off) with hmin | hmin
  · rw [hmin]
    exact extract_lt _ _ _
  · rw [hmin, extract_eq]
    exact (Nat.mod_le _ _).trans_lt (block_div_lt block hoff)

/-- A field that reaches bit 64 is all of the block above its offset. -/
theorem extract_block_of_le_add (block : Block) {off wid : Nat} (hoff : off ≤ 64) (hend : 64 ≤ off + wid) :
    extract block.toNat off wid = block.toNat / 2 ^ off := by
  have hpow : 2 ^ (64 - off) ≤ 2 ^ wid := Nat.pow_le_pow_right Nat.two_pos (by omega)
  rw [extract_eq, Nat.mod_eq_of_lt ((block_div_lt block hoff).trans_le hpow)]

theorem bits_block_63 (block : Block) {off : Nat} (hoff : off < 64) :
    bits block.toNat 63 off = block.toNat / 2 ^ off := by
  have htop : off + (64 - off) - 1 = 63 := by omega
  rw [← extract_block_of_le_add block hoff.le (wid := 64 - off) (by omega), extract_eq_bits _ _ (by omega), htop]

/-- The 64-bit result port never truncates. -/
theorem toNat_ofNat_extract (block : Block) (off wid : Nat) :
    (BitVec.ofNat 64 (extract block.toNat off wid)).toNat = extract block.toNat off wid := by
  have hle : extract block.toNat off wid ≤ block.toNat := by
    rw [extract_eq]
    exact (Nat.mod_le _ _).trans (Nat.div_le_self _ _)
  rw [BitVec.toNat_ofNat, Nat.mod_eq_of_lt (hle.trans_lt block.isLt)]

theorem exec_bfExtract (block : Block) (off : BitVec 6) (wid : BitVec 7) (s : State) :
    exec (.bfExtract block off wid) s =
      .next (deliver (.ok (.bfExtract (BitVec.ofNat 64 (extract block.toNat off.toNat wid.toNat)))) s) := rfl

/-- Settles O19: the port carries `extract`, and each corner case is an equation of `extract` on a block. -/
theorem bfExtractReadsTheField : Obligations.BfExtractReadsTheField := by
  refine ⟨fun block off wid s => ⟨(Laws.SelectsItself.bfExtract block off wid).1, ?_⟩, fun _ => rfl⟩
  have hoff : off.toNat < 64 := off.isLt
  refine ⟨_, exec_bfExtract block off wid s, rfl, ?_⟩
  rw [toNat_ofNat_extract]
  refine ⟨extract_eq _ _ _, extract_block_lt block hoff.le _, ?widthZero, ?inside, ?pastTheEnd, ?wide⟩
  case widthZero =>
    rintro rfl
    simp [extract_eq, Nat.mod_one]
  case inside =>
    intro hwid _
    have hpos : 0 < wid.toNat := Nat.pos_of_ne_zero fun hzero => hwid (BitVec.eq_of_toNat_eq hzero)
    exact extract_eq_bits _ _ hpos
  case pastTheEnd =>
    intro hend
    rw [extract_block_of_le_add block hoff.le hend.le, bits_block_63 block hoff]
  case wide =>
    intro hwid
    have hend : 64 ≤ off.toNat + wid.toNat := hwid.trans (Nat.le_add_left _ _)
    refine BitVec.eq_of_toNat_eq ?_
    rw [toNat_ofNat_extract, extract_block_of_le_add block hoff.le hend, BitVec.toNat_ushiftRight,
      Nat.shiftRight_eq_div_pow]

end Sys2Proof.Machine

/-! PROOFS. BF.PACK (R111, R112): the three ranges of the value, and what bounds a contribution. -/

namespace Sys2Proof.Machine

theorem clamp_of_lt {v lo : Int} (hi : Int) (hbelow : v < lo) : clamp v lo hi = lo := if_pos hbelow

theorem clamp_of_gt {v lo hi : Int} (hlohi : lo ≤ hi) (habove : hi < v) : clamp v lo hi = hi := by
  rw [clamp, if_neg (by omega), if_pos habove]

theorem natCast_mask (wid : Nat) : (mask wid : Int) = 2 ^ wid - 1 := by
  rw [mask_eq, Nat.cast_sub Nat.one_le_two_pow]
  norm_cast

theorem pack_of_neg (off wid : Nat) {v : Int} (hneg : v < 0) : pack off wid v = 0 := by
  rw [pack_eq, clamp_of_lt _ hneg, Int.toNat_zero, Nat.zero_mul]

/-- A value that fits the field is only shifted. -/
theorem pack_of_fits (off : Nat) {wid : Nat} {v : Int} (hpos : 0 ≤ v) (hfits : v < 2 ^ wid) :
    (pack off wid v : Int) = v * 2 ^ off := by
  have hle : v ≤ mask wid := by rw [natCast_mask]; omega
  rw [pack_eq, clamp_of_mem hpos hle, Nat.cast_mul, Int.toNat_of_nonneg hpos, Nat.cast_pow, Nat.cast_ofNat]

/-- A value too large for the field sets all its bits. -/
theorem pack_of_large (off : Nat) {wid : Nat} {v : Int} (hlarge : 2 ^ wid ≤ v) :
    pack off wid v = (2 ^ wid - 1) * 2 ^ off := by
  have hlt : (mask wid : Int) < v := by rw [natCast_mask]; omega
  rw [pack_eq, clamp_of_gt (Int.natCast_nonneg _) hlt, Int.toNat_natCast, mask_eq]

/-- A contribution is bounded by its field and by the value's own range. -/
theorem pack_lt (off wid : Nat) {v : Int} {n : Nat} (hv : v < 2 ^ n) :
    pack off wid v < 2 ^ (off + min wid n) := by
  have hclamp : (clamp v 0 (mask wid)).toNat < 2 ^ min wid n := by
    rcases min_choice wid n with hmin | hmin
    · rw [hmin]
      exact clamp_mask_toNat_lt wid v
    · have hpow : ((2 ^ n : Nat) : Int) = 2 ^ n := by norm_cast
      have := Nat.two_pow_pos n
      rw [hmin, clamp_eq_max_min (Int.natCast_nonneg _)]
      omega
  rw [pack_eq, Nat.add_comm, Nat.pow_add]
  exact Nat.mul_lt_mul_of_pos_right hclamp (Nat.two_pow_pos off)

/-- The bound on the ports of BF.PACK, whose value is below 2^63 (R111). -/
theorem pack_port_lt (off wid : Nat) (value : Signed64) :
    pack off wid (signedValue value) < 2 ^ (off + min wid 63) := by
  rw [signedValue_eq_toInt]
  exact pack_lt off wid BitVec.toInt_lt

/-- The 128-bit result port never truncates (R119). -/
theorem toNat_ofNat_pack (off : BitVec 6) (wid : Nat) (value : Signed64) :
    (BitVec.ofNat 128 (pack off.toNat wid (signedValue value))).toNat =
      pack off.toNat wid (signedValue value) := by
  have hport : 2 ^ (off.toNat + min wid 63) ≤ 2 ^ 128 := Nat.pow_le_pow_right Nat.two_pos (by omega)
  rw [BitVec.toNat_ofNat, Nat.mod_eq_of_lt ((pack_port_lt _ _ value).trans_le hport)]

theorem exec_bfPack (off : BitVec 6) (wid : BitVec 7) (value : Signed64) (s : State) :
    exec (.bfPack off wid value) s =
      .next (deliver (.ok (.bfPack (BitVec.ofNat 128 (pack off.toNat wid.toNat (signedValue value))))) s) := rfl

/-- Settles O20: the port carries `pack`, which has an equation for each range of the value. -/
theorem bfPackClampsAndShifts : Obligations.BfPackClampsAndShifts := by
  refine ⟨fun off wid value s => ⟨(Laws.SelectsItself.bfPack off wid value).1, ?_⟩, fun _ => ⟨rfl, rfl⟩⟩
  refine ⟨_, exec_bfPack off wid value s, rfl, ?_⟩
  rw [← BitVec.toNat_inj, toNat_ofNat_pack]
  have hbound := pack_port_lt off.toNat wid.toNat value
  rw [signedValue_eq_toInt] at hbound ⊢
  exact ⟨pack_of_neg _ _, pack_of_fits _, pack_of_large _, hbound⟩

/-- No point of the interval is nearer to `v` than the clamped one. -/
theorem abs_sub_clamp_le {lo hi m : Int} (hlo : lo ≤ m) (hhi : m ≤ hi) (v : Int) :
    |v - clamp v lo hi| ≤ |v - m| := by
  rcases lt_or_ge v lo with hbelow | hge
  · rw [clamp_of_lt _ hbelow, abs_of_nonpos (by omega), abs_of_nonpos (by omega)]
    omega
  · rcases lt_or_ge hi v with habove | hle
    · rw [clamp_of_gt (hlo.trans hhi) habove, abs_of_nonneg (by omega), abs_of_nonneg (by omega)]
      omega
    · rw [clamp_of_mem hge hle, sub_self, abs_zero]
      exact abs_nonneg _

/-- Settles O21: the clamped value is the nearest point of 0 .. 2^wid-1. -/
theorem packGivesTheNearestRepresentableValue : Obligations.PackGivesTheNearestRepresentableValue := by
  refine ⟨fun off wid v => ⟨_, pack_eq off wid v, clamp_mask_toNat_lt wid v, fun m hm => ?_⟩, by decide⟩
  have hmask : m ≤ mask wid := (Nat.le_sub_one_of_lt hm).trans_eq (mask_eq wid).symm
  rw [Int.toNat_of_nonneg (clamp_mem (Int.natCast_nonneg _) v).1]
  exact abs_sub_clamp_le (Int.natCast_nonneg m) (Int.ofNat_le.mpr hmask) v

end Sys2Proof.Machine

/-! PROOFS. The refusals of FC.PARSE (R131, R132), each with the exact condition on the text without its mark, and
the letter case, which neither the mark nor the digits see. -/

namespace Sys2Proof.Machine

theorem conclude_eq_error_iff (r : Except ErrorKind Results) (k : ErrorKind) (s : State) :
    conclude r s = .next (deliver (.error k) s) ↔ r = .error k := by
  cases r <;> simp [deliver]

/-- FC.PARSE answers an error exactly where `parse` raises it. -/
theorem exec_fcParse_error_iff (text : List Byte) (k : ErrorKind) (s : State) :
    exec (.fcParse text) s = .next (deliver (.error k) s) ↔ parse Config.params text = .error k := by
  rw [exec_fcParse, conclude_eq_error_iff]
  cases parse Config.params text <;> simp [Except.map]

/-- All `parse` can do, with the condition of each answer. -/
theorem parse_cases (p : Params) (text : List Byte) :
    ((stripMark p text).length ≠ 64 ∧ parse p text = .error .badLength) ∨
      ((stripMark p text).length = 64 ∧ (¬ ∀ c ∈ stripMark p text, hexDigitByte c = true) ∧
        parse p text = .error .badCharset) ∨
      (sixtyFourDigits (stripMark p text) ∧ ∃ f, parse p text = .ok f) := by
  by_cases hlen : (stripMark p text).length = 64
  · by_cases hall : ∀ c ∈ stripMark p text, hexDigitByte c = true
    · exact .inr (.inr ⟨⟨hlen, hall⟩, _, parse_of_digits ⟨hlen, hall⟩⟩)
    · exact .inr (.inl ⟨hlen, hall, parse_of_bad_character hlen hall⟩)
  · exact .inl ⟨hlen, parse_of_length_ne hlen⟩

theorem parse_eq_badLength_iff (p : Params) (text : List Byte) :
    parse p text = .error .badLength ↔ (stripMark p text).length ≠ 64 := by
  rcases parse_cases p text with ⟨hlen, hparse⟩ | ⟨hlen, -, hparse⟩ | ⟨⟨hlen, -⟩, f, hparse⟩ <;> simp [hparse, hlen]

theorem parse_eq_badCharset_iff (p : Params) (text : List Byte) :
    parse p text = .error .badCharset ↔
      (stripMark p text).length = 64 ∧ ∃ b ∈ stripMark p text, hexDigitByte b = false := by
  rcases parse_cases p text with ⟨hlen, hparse⟩ | ⟨hlen, hbad, hparse⟩ | ⟨⟨-, hall⟩, f, hparse⟩
  · simp [hparse, hlen]
  · simpa [hparse, hlen] using hbad
  · simpa [hparse] using fun _ => hall

theorem exec_fcParse_badLength_iff (text : List Byte) (s : State) :
    exec (.fcParse text) s = .next (deliver (.error .badLength) s) ↔ (stripMark Config.params text).length ≠ 64 :=
  (exec_fcParse_error_iff text _ s).trans (parse_eq_badLength_iff _ text)

theorem exec_fcParse_badCharset_iff (text : List Byte) (s : State) :
    exec (.fcParse text) s = .next (deliver (.error .badCharset) s) ↔
      (stripMark Config.params text).length = 64 ∧ ∃ b ∈ stripMark Config.params text, hexDigitByte b = false :=
  (exec_fcParse_error_iff text _ s).trans (parse_eq_badCharset_iff _ text)

/-- Settles O28: what remains of a marked text is its tail, of any other text all of it. -/
theorem fcParseRefusesWrongLength : Obligations.FcParseRefusesWrongLength := by
  intro s
  constructor
  · intro c rest hmark
    have h := exec_fcParse_badLength_iff (char0 :: c :: rest) s
    rwa [stripMark_marked hmark] at h
  · intro text hunmarked
    have h := exec_fcParse_badLength_iff text s
    rwa [stripMark_unmarked hunmarked] at h

/-! Letter case (R78, R132). -/

theorem lower_of_upper {c : Byte} (hlo : 0x41 ≤ c.toNat) (hhi : c.toNat ≤ 0x5A) :
    (lower c).toNat = c.toNat + 0x20 := by
  rw [lower, if_pos ⟨hlo, hhi⟩, BitVec.toNat_add, BitVec.toNat_ofNat]
  omega

theorem lower_of_not_upper {c : Byte} (h : c.toNat < 0x41 ∨ 0x5A < c.toNat) : lower c = c :=
  if_neg (by omega)

theorem hexval_eq_none {c : Byte} (h : hexDigitByte c = false) : hexval c = none := by
  rwa [← isSome_hexval, Option.isSome_eq_false_iff, Option.isNone_iff_eq_none] at h

/-- A digit's value does not depend on its case, and `G`..`Z` are no digits in either case. -/
theorem hexval_lower (c : Byte) : hexval (lower c) = hexval c := by
  by_cases hupper : 0x41 ≤ c.toNat ∧ c.toNat ≤ 0x5A
  · have hcode := lower_of_upper hupper.1 hupper.2
    by_cases hhex : c.toNat ≤ 0x46
    · rw [hexval_of_lower (by omega) (by omega), hexval_of_upper hupper.1 hhex, hcode]
      congr 2
    · have hnone : hexDigitByte c = false ∧ hexDigitByte (lower c) = false := by
        simp only [Bool.eq_false_iff, ne_eq, hexDigitByte_iff]
        omega
      rw [hexval_eq_none hnone.1, hexval_eq_none hnone.2]
  · rw [lower_of_not_upper (by omega)]

theorem byteAt_map_lower (text : List Byte) (i : Nat) : byteAt (text.map lower) i = lower (byteAt text i) := by
  have hzero : lower 0#8 = 0#8 := by decide
  simp only [byteAt, List.getD_eq_getElem?_getD, List.getElem?_map]
  cases text[i]? <;> simp [hzero]

/-- The mark is `0x` or `0X` exactly where it is `0x` in lower case. -/
theorem isHexMark_lower (c0 c1 : Byte) :
    isHexMark Config.params (lower c0) (lower c1) = isHexMark Config.params c0 c1 := by
  have hzero : ∀ c : Byte, (lower c == char0) = (c == char0) := by decide
  have hx : ∀ c : Byte, (lower c == charx || lower c == charX) = (c == charx || c == charX) := by decide
  simp only [isHexMark, params_fcPrefixAnycase, Bool.true_and, hzero, hx]

theorem stripMark_map_lower (text : List Byte) :
    stripMark Config.params (text.map lower) = (stripMark Config.params text).map lower := by
  match text with
  | [] => rfl
  | [_] => rfl
  | c0 :: c1 :: rest =>
    simp only [stripMark, List.map_cons, isHexMark_lower]
    split <;> rfl

theorem blockOf_map_lower (ds : List Byte) (k : Nat) : blockOf (ds.map lower) k = blockOf ds k := by
  simp only [blockOf, digitValue, byteAt_map_lower, hexval_lower]

theorem parse_map_lower (text : List Byte) : parse Config.params (text.map lower) = parse Config.params text := by
  simp only [parse, stripMark_map_lower, List.length_map, List.any_map, Function.comp_def, hexval_lower,
    blockOf_map_lower]

/-- Settles O29: the bad character as the length in O28; `parse` answers the same for a text in lower case. -/
theorem fcParseRefusesBadCharacter : Obligations.FcParseRefusesBadCharacter := by
  intro s
  refine ⟨fun c rest hmark => ?marked, fun text hunmarked => ?unmarked, fun text => ?letterCase⟩
  case marked =>
    have h := exec_fcParse_badCharset_iff (char0 :: c :: rest) s
    rwa [stripMark_marked hmark] at h
  case unmarked =>
    have h := exec_fcParse_badCharset_iff text s
    rwa [stripMark_unmarked hunmarked] at h
  case letterCase => rw [exec_fcParse, exec_fcParse, parse_map_lower]

end Sys2Proof.Machine

/-! PROOFS. The blocks of a text (R80, R133): a run of hex digits is a base-16 numeral, so reading the sum of
weighted digits and reading from the left are the same. -/

namespace Sys2Proof.Machine

/-- The value of one character of a numeral, 0 where it is no digit. -/
def hexvalOrZero (c : Byte) : Nat := (hexval c).getD 0

theorem hexvalOrZero_lt (c : Byte) : hexvalOrZero c < 16 := by
  rw [hexvalOrZero]
  cases h : hexval c with
  | none => decide
  | some n => exact hexval_lt h

theorem foldl_digits (ds : List Byte) (acc : Nat) :
    ds.foldl (fun acc c => 16 * acc + hexvalOrZero c) acc = acc * 16 ^ ds.length + digitsValue ds := by
  induction ds generalizing acc with
  | nil => simp [digitsValue]
  | cons c ds ih =>
    have hcons : digitsValue (c :: ds) = (16 * 0 + hexvalOrZero c) * 16 ^ ds.length + digitsValue ds := ih _
    rw [List.foldl_cons, ih, hcons, List.length_cons]
    ring

/-- The first digit has the weight of the digits after it. -/
theorem digitsValue_cons (c : Byte) (ds : List Byte) :
    digitsValue (c :: ds) = hexvalOrZero c * 16 ^ ds.length + digitsValue ds :=
  (foldl_digits ds (16 * 0 + hexvalOrZero c)).trans (by rw [Nat.mul_zero, Nat.zero_add])

theorem digitsValue_lt (ds : List Byte) : digitsValue ds < 16 ^ ds.length := by
  induction ds with
  | nil => decide
  | cons c ds ih =>
    have hle := Nat.mul_le_mul_right (16 ^ ds.length) (Nat.le_of_lt_succ (hexvalOrZero_lt c))
    rw [digitsValue_cons, List.length_cons, Nat.pow_succ]
    omega

theorem digitValue_eq (ds : List Byte) (i : Nat) : digitValue ds i = hexvalOrZero (byteAt ds i) := rfl

/-- The weighted sum of R133, over any number of digits. -/
theorem sum_digitValue (ds : List Byte) :
    ((List.range ds.length).map fun j => 16 ^ (ds.length - 1 - j) * digitValue ds j).sum = digitsValue ds := by
  induction ds with
  | nil => rfl
  | cons c ds ih =>
    have hweight (j : Nat) : ds.length - 1 - j = ds.length - (j + 1) := by omega
    have hhead : digitValue (c :: ds) 0 = hexvalOrZero c := rfl
    have htail (j : Nat) : digitValue (c :: ds) (j + 1) = digitValue ds j := rfl
    rw [List.length_cons, List.range_succ_eq_map, List.map_cons, List.sum_cons, List.map_map, digitsValue_cons, ← ih]
    simp only [Function.comp_def, Nat.add_sub_cancel, Nat.sub_zero, hweight, hhead, htail, Nat.mul_comm]

/-- The block FC.PARSE reads is the number its 16 digits write. -/
theorem blockOf_eq_blockValue {ds : List Byte} {k : Nat} (h : 16 * (k + 1) ≤ ds.length) :
    blockOf ds k = blockValue ds k := by
  have hlen : (slice ds (16 * k) 16).length = 16 := by simp [slice]; omega
  have hsum := sum_digitValue (slice ds (16 * k) 16)
  rw [hlen] at hsum
  refine Eq.trans ?_ hsum
  refine congrArg List.sum (List.map_congr_left fun j hj => ?_)
  rw [digitValue_eq, digitValue_eq, byteAt_slice _ _ (List.mem_range.mp hj)]

theorem blockValue_lt (ds : List Byte) (k : Nat) : blockValue ds k < 2 ^ 64 :=
  calc blockValue ds k < 16 ^ ((ds.drop (16 * k)).take 16).length := digitsValue_lt _
    _ ≤ 16 ^ 16 := Nat.pow_le_pow_right (by decide) (List.length_take_le _ _)
    _ = 2 ^ 64 := by decide

/-! The fields of an accepted text (R81 to R84, R134). -/

/-- A result port at least as wide as its field loses no bit of it. -/
theorem toNat_ofNat_field (b off : Nat) {wid w : Nat} (hpos : 0 < wid) (hle : wid ≤ w) :
    (BitVec.ofNat w (extract b off wid)).toNat = bits b (off + wid - 1) off := by
  have hlt : extract b off wid < 2 ^ w := (extract_lt b off wid).trans_le (Nat.pow_le_pow_right Nat.two_pos hle)
  rw [BitVec.toNat_ofNat, Nat.mod_eq_of_lt hlt, extract_eq_bits b off hpos]

theorem getD_tabulate {α : Type} {n i : Nat} (f : Nat → α) (d : α) (hi : i < n) :
    (tabulate n f).toList.getD i d = f i := by
  simp [List.getElem?_range hi]

theorem attrAt_attrsOf {α : Type} (f : Nat → α) {k : Nat} (hk : k < 7) : attrAt (attrsOf f) k = f k := by
  match k, hk with
  | 0, _ | 1, _ | 2, _ | 3, _ | 4, _ | 5, _ | 6, _ => rfl

theorem fieldsOf_morph_getD {b0 b1 b2 b3 i : Nat} (hi : i < 43) :
    ((fieldsOf b0 b1 b2 b3).morph.toList.getD i 0).toNat = (BitVec.ofNat 3 (morphField b1 b2 i)).toNat := by
  rw [fieldsOf, getD_tabulate _ _ hi]

/-- Morphs 0..20 (R82). -/
theorem fieldsOf_morph_b1 (b0 b1 b2 b3 : Nat) {i : Nat} (hi : i < 21) :
    ((fieldsOf b0 b1 b2 b3).morph.toList.getD i 0).toNat = bits b1 (3 * i + 2) (3 * i) := by
  rw [fieldsOf_morph_getD (by omega), morphField, if_pos (by omega), toNat_ofNat_field _ _ (by decide) le_rfl]
  rfl

/-- Morphs 21..41 (R83). -/
theorem fieldsOf_morph_b2 (b0 b1 b2 b3 : Nat) {i : Nat} (hi : i < 21) :
    ((fieldsOf b0 b1 b2 b3).morph.toList.getD (21 + i) 0).toNat = bits b2 (3 * i + 2) (3 * i) := by
  rw [fieldsOf_morph_getD (by omega), morphField, if_neg (by omega), if_pos (by omega), Nat.add_sub_cancel_left,
    toNat_ofNat_field _ _ (by decide) le_rfl]
  rfl

/-- Morph 42 (R83). -/
theorem fieldsOf_morph_42 (b0 b1 b2 b3 : Nat) :
    ((fieldsOf b0 b1 b2 b3).morph.toList.getD 42 0).toNat = bits b2 63 63 := by
  rw [fieldsOf_morph_getD (by decide), morphField, if_neg (by decide), if_neg (by decide),
    toNat_ofNat_field _ _ (by decide) (by decide)]

/-- `APP[k]` (R81). -/
theorem fieldsOf_app (b0 b1 b2 b3 : Nat) {k : Nat} (hk : k < 7) :
    (attrAt (fieldsOf b0 b1 b2 b3).app k).toNat = bits b0 (6 * k + 5) (6 * k) := by
  rw [fieldsOf, attrAt_attrsOf _ hk, toNat_ofNat_field _ _ (by decide) le_rfl]
  rfl

theorem fieldsOf_b3 (b0 b1 b2 : Nat) {b3 : Nat} (h : b3 < 2 ^ 64) : (fieldsOf b0 b1 b2 b3).b3.toNat = b3 := by
  rw [fieldsOf, BitVec.toNat_ofNat, Nat.mod_eq_of_lt h]

/-- What FC.PARSE gives for an accepted text, with or without a mark. -/
theorem parse_mark_append {mark ds : List Byte} (hmark : mark ∈ marks) (hds : sixtyFourDigits ds) :
    parse Config.params (mark ++ ds) =
      .ok (fieldsOf (blockValue ds 0) (blockValue ds 1) (blockValue ds 2) (blockValue ds 3)) := by
  have hblock {k : Nat} (hk : k < 4) : blockOf ds k = blockValue ds k :=
    blockOf_eq_blockValue (by have := hds.1; omega)
  have hstrip := stripMark_mark_append hmark hds
  rw [parse_of_digits (by rwa [hstrip]), hstrip, hblock (by decide), hblock (by decide), hblock (by decide),
    hblock (by decide)]

/-- Settles O31: the fields are those of the blocks the digits write. -/
theorem fcParseReadsEveryField : Obligations.FcParseReadsEveryField := by
  intro mark ds s hmark hds
  have happ {k : Nat} (hk : k < 7) :=
    fieldsOf_app (blockValue ds 0) (blockValue ds 1) (blockValue ds 2) (blockValue ds 3) hk
  exact ⟨(Laws.SelectsItself.fcParse _).1, _, (exec_fcParse_ok_iff _ _ s).mpr (parse_mark_append hmark hds), rfl,
    fun k _ => blockValue_lt ds k,
    happ (k := 0) (by decide), happ (k := 1) (by decide), happ (k := 2) (by decide), happ (k := 3) (by decide),
    happ (k := 4) (by decide), happ (k := 5) (by decide), happ (k := 6) (by decide),
    fun i => fieldsOf_morph_b1 _ _ _ _, fun i => fieldsOf_morph_b2 _ _ _ _, fieldsOf_morph_42 _ _ _ _,
    fieldsOf_b3 _ _ _ (blockValue_lt ds 3)⟩

end Sys2Proof.Machine

/-! PROOFS. Blocks as a union of fields (R111, R138): where no two fields share a bit, each keeps its clamped value in
the OR of the contributions. -/

namespace Sys2Proof.Machine

/-- Bit `k` of the block belongs to the field. -/
def FieldValue.Covers (f : FieldValue) (k : Nat) : Prop := f.off ≤ k ∧ k < f.off + f.wid

/-- The two fields share no bit. -/
def FieldValue.Apart (f g : FieldValue) : Prop := ∀ k, ¬ (f.Covers k ∧ g.Covers k)

theorem FieldValue.apart_symm : Std.Symm FieldValue.Apart :=
  ⟨fun _ _ h k hk => h k hk.symm⟩

theorem FieldValue.apart_of_le {f g : FieldValue} (h : f.off + f.wid ≤ g.off) : f.Apart g := by
  rintro k ⟨⟨-, hf⟩, ⟨hg, -⟩⟩
  omega

/-- A contribution is 0 outside its own field, whatever the value. -/
theorem testBit_pack_of_not_covers {f : FieldValue} {k : Nat} (h : ¬ f.Covers k) :
    (pack f.off f.wid f.value).testBit k = false := by
  rw [testBit_pack, Bool.and_eq_false_imp]
  intro hoff
  have hle : f.wid ≤ k - f.off := by
    have := of_decide_eq_true hoff
    have : ¬ k < f.off + f.wid := fun hlt => h ⟨this, hlt⟩
    omega
  exact Nat.testBit_lt_two_pow ((clamp_mask_toNat_lt _ _).trans_le (Nat.pow_le_pow_right Nat.two_pos hle))

/-- A bit in no field is 0. -/
theorem testBit_orFields_of_not_covers {fs : List FieldValue} {k : Nat} (h : ∀ f ∈ fs, ¬ f.Covers k) :
    (orFields fs).testBit k = false := by
  rw [testBit_orFields, List.any_eq_false]
  intro f hf
  rw [testBit_pack_of_not_covers (h f hf)]
  exact Bool.false_ne_true

theorem orFields_lt {fs : List FieldValue} {n : Nat} (h : ∀ f ∈ fs, f.off + f.wid ≤ n) : orFields fs < 2 ^ n := by
  refine Nat.lt_pow_two_of_testBit _ fun k hk => testBit_orFields_of_not_covers ?_
  rintro f hf ⟨-, hlt⟩
  have := h f hf
  omega

/-- Inside a field the OR has the bits of that field's contribution alone. -/
theorem testBit_orFields_of_covers {fs : List FieldValue} (hapart : fs.Pairwise FieldValue.Apart) {f : FieldValue}
    (hf : f ∈ fs) {k : Nat} (hk : f.Covers k) : (orFields fs).testBit k = (pack f.off f.wid f.value).testBit k := by
  have hsymm := FieldValue.apart_symm
  rw [testBit_orFields, Bool.eq_iff_iff, List.any_eq_true]
  constructor
  · rintro ⟨g, hg, hbit⟩
    by_cases hfg : f = g
    · rwa [hfg]
    · have hgk : ¬ g.Covers k := fun hgk => hapart.forall hf hg hfg k ⟨hk, hgk⟩
      rw [testBit_pack_of_not_covers hgk] at hbit
      exact absurd hbit Bool.false_ne_true
  · exact fun hbit => ⟨f, hf, hbit⟩

theorem extract_orFields {fs : List FieldValue} (hapart : fs.Pairwise FieldValue.Apart) {f : FieldValue}
    (hf : f ∈ fs) : extract (orFields fs) f.off f.wid = (clamp f.value 0 (mask f.wid)).toNat := by
  refine Nat.eq_of_testBit_eq fun j => ?_
  rw [testBit_extract]
  by_cases hj : j < f.wid
  · rw [testBit_orFields_of_covers hapart hf ⟨by omega, by omega⟩, testBit_pack, Nat.add_sub_cancel_left]
    simp [hj]
  · have hlt : (clamp f.value 0 (mask f.wid)).toNat < 2 ^ j :=
      (clamp_mask_toNat_lt _ _).trans_le (Nat.pow_le_pow_right Nat.two_pos (by omega))
    rw [Nat.testBit_lt_two_pow hlt]
    simp [hj]

/-- `nearest` is what `pack` puts into a field. -/
theorem clamp_mask_eq_nearest (wid : Nat) (v : Int) : (clamp v 0 (mask wid)).toNat = nearest (2 ^ wid - 1) v := by
  rw [clamp_eq_max_min (Int.natCast_nonneg _), mask_eq, nearest]

theorem bits_orFields {fs : List FieldValue} (hapart : fs.Pairwise FieldValue.Apart) {off wid : Nat} {v : Int}
    (hf : ⟨off, wid, v⟩ ∈ fs) (hpos : 0 < wid) :
    bits (orFields fs) (off + wid - 1) off = nearest (2 ^ wid - 1) v := by
  rw [← extract_eq_bits _ _ hpos, ← clamp_mask_eq_nearest]
  exact extract_orFields hapart hf

theorem orFields_eq_zero {fs : List FieldValue} (h : ∀ f ∈ fs, f.value = 0) : orFields fs = 0 := by
  induction fs with
  | nil => rfl
  | cons f fs ih =>
    have hzero : pack f.off f.wid 0 = 0 := by
      rw [pack_eq, clamp_of_mem le_rfl (Int.natCast_nonneg _), Int.toNat_zero, Nat.zero_mul]
    rw [orFields_cons, h f (by simp), hzero, ih fun g hg => h g (by simp [hg]), Nat.or_zero]

/-- Bits above a block's last field are 0. -/
theorem bits_of_lt {v lo : Nat} (hi : Nat) (h : v < 2 ^ lo) : bits v hi lo = 0 := by
  rw [bits, Nat.div_eq_of_lt h, Nat.zero_mod]

/-! Fields side by side, the shape of B0, B1 and B2 (R81 to R83). -/

/-- `n` fields of `wid` bits from bit 0 up, with no gap. -/
def adjacentFields (wid n : Nat) (value : Nat → Int) : List FieldValue :=
  (List.range n).map fun i => ⟨wid * i, wid, value i⟩

theorem mem_adjacentFields {wid n : Nat} {value : Nat → Int} {f : FieldValue} :
    f ∈ adjacentFields wid n value ↔ ∃ i < n, ⟨wid * i, wid, value i⟩ = f := by
  simp [adjacentFields]

theorem adjacentFields_apart (wid n : Nat) (value : Nat → Int) :
    (adjacentFields wid n value).Pairwise FieldValue.Apart := by
  rw [adjacentFields, List.pairwise_map]
  refine List.pairwise_lt_range.imp fun {i j} hij => FieldValue.apart_of_le ?_
  exact (Nat.mul_succ wid i).symm.trans_le (Nat.mul_le_mul_left wid hij)

theorem adjacentFields_end_le {wid n : Nat} {value : Nat → Int} {f : FieldValue}
    (hf : f ∈ adjacentFields wid n value) : f.off + f.wid ≤ wid * n := by
  obtain ⟨i, hi, rfl⟩ := mem_adjacentFields.mp hf
  exact (Nat.mul_succ wid i).symm.trans_le (Nat.mul_le_mul_left wid hi)

theorem adjacentFields_values_zero {wid n : Nat} {value : Nat → Int} (h : ∀ i < n, value i = 0) :
    ∀ f ∈ adjacentFields wid n value, f.value = 0 := by
  intro f hf
  obtain ⟨i, hi, rfl⟩ := mem_adjacentFields.mp hf
  exact h i hi

theorem adjacentFields_congr {wid n : Nat} {value value' : Nat → Int} (h : ∀ i < n, value i = value' i) :
    adjacentFields wid n value = adjacentFields wid n value' :=
  List.map_congr_left fun i hi => by rw [h i (List.mem_range.mp hi)]

end Sys2Proof.Machine

/-! PROOFS. The digits of a generated text (R80, R139): the numeral of `hex16` is its block. -/

namespace Sys2Proof.Machine

theorem hexvalOrZero_hexdig {n : Nat} (h : n < 16) : hexvalOrZero (hexdig n) = n := by
  have hall : ∀ n < 16, hexvalOrZero (hexdig n) = n := by decide
  exact hall n h

theorem bits_digit_lt (b i : Nat) : bits b (4 * i + 3) (4 * i) < 16 := by
  simpa [Nat.add_sub_cancel_left] using bits_lt b (4 * i + 3) (4 * i)

/-- `n` digits of a number, the most significant first, are its low `n` digits. -/
theorem digitsValue_hexdigs (b n : Nat) :
    digitsValue ((List.range n).map fun j => hexdig (bits b (4 * (n - 1 - j) + 3) (4 * (n - 1 - j)))) =
      b % 16 ^ n := by
  induction n with
  | zero => simp [digitsValue, Nat.mod_one]
  | succ n ih =>
    have hindex (j : Nat) : n - 1 - j = n - (j + 1) := by omega
    have hfirst : bits b (4 * n + 3) (4 * n) = b / 16 ^ n % 16 := by
      rw [bits, Nat.add_sub_cancel_left, Nat.pow_mul]
      norm_num
    simp only [hindex] at ih
    rw [List.range_succ_eq_map, List.map_cons, List.map_map, digitsValue_cons]
    simp only [Function.comp_def, Nat.add_sub_cancel, Nat.sub_zero, Nat.succ_eq_add_one, List.length_map,
      List.length_range]
    rw [ih, hexvalOrZero_hexdig (bits_digit_lt b n), hfirst, Nat.pow_succ, Nat.mod_mul, Nat.mul_comm, Nat.add_comm]

theorem digitsValue_hex16 {b : Nat} (h : b < 2 ^ 64) : digitsValue (hex16 b) = b :=
  (digitsValue_hexdigs b 16).trans (Nat.mod_eq_of_lt h)

theorem mem_hexDigits_of_mem_hex16 {b : Nat} {c : Byte} (hc : c ∈ hex16 b) : c ∈ hexDigits := by
  obtain ⟨j, -, rfl⟩ := List.mem_map.mp hc
  exact hexdig_mem (bits_digit_lt b _)

theorem hex16_zero : hex16 0 = List.replicate 16 char0 := by decide

/-- Four blocks as 64 digits (R80). -/
def blocksText (b0 b1 b2 b3 : Nat) : List Byte := hex16 b0 ++ hex16 b1 ++ hex16 b2 ++ hex16 b3

theorem length_blocksText (b0 b1 b2 b3 : Nat) : (blocksText b0 b1 b2 b3).length = 64 := by
  simp [blocksText]

theorem mem_hexDigits_of_mem_blocksText {b0 b1 b2 b3 : Nat} {c : Byte} (hc : c ∈ blocksText b0 b1 b2 b3) :
    c ∈ hexDigits := by
  simp only [blocksText, List.mem_append] at hc
  rcases hc with ((hc | hc) | hc) | hc <;> exact mem_hexDigits_of_mem_hex16 hc

theorem blockValue_append_zero {xs : List Byte} (hxs : xs.length = 16) (ys : List Byte) :
    blockValue (xs ++ ys) 0 = digitsValue xs := by
  rw [blockValue, Nat.mul_zero, List.drop_zero, List.take_left' hxs]

theorem blockValue_append_succ {xs : List Byte} (hxs : xs.length = 16) (ys : List Byte) (k : Nat) :
    blockValue (xs ++ ys) (k + 1) = blockValue ys k := by
  rw [blockValue, Nat.mul_succ, Nat.add_comm, ← List.drop_drop, List.drop_left' hxs, blockValue]

/-- The blocks that stand in the digits of four blocks. -/
theorem blockValue_blocksText {b0 b1 b2 b3 : Nat} (h0 : b0 < 2 ^ 64) (h1 : b1 < 2 ^ 64) (h2 : b2 < 2 ^ 64)
    (h3 : b3 < 2 ^ 64) :
    blockValue (blocksText b0 b1 b2 b3) 0 = b0 ∧ blockValue (blocksText b0 b1 b2 b3) 1 = b1 ∧
      blockValue (blocksText b0 b1 b2 b3) 2 = b2 ∧ blockValue (blocksText b0 b1 b2 b3) 3 = b3 := by
  have hhead {b : Nat} (hb : b < 2 ^ 64) (ys : List Byte) : blockValue (hex16 b ++ ys) 0 = b :=
    (blockValue_append_zero (length_hex16 b) ys).trans (digitsValue_hex16 hb)
  have htail (b : Nat) (ys : List Byte) (k : Nat) : blockValue (hex16 b ++ ys) (k + 1) = blockValue ys k :=
    blockValue_append_succ (length_hex16 b) ys k
  have hlast : blockValue (hex16 b3) 0 = b3 := by simpa using hhead h3 []
  rw [blocksText, List.append_assoc, List.append_assoc]
  exact ⟨hhead h0 _, by rw [htail, hhead h1], by rw [htail, htail, hhead h2], by rw [htail, htail, htail, hlast]⟩

end Sys2Proof.Machine

/-! PROOFS. FC.GENERATE (R135 to R139): B0 is seven fields of six bits, B1 and B2 each twenty-one fields of three
bits, B2 with morph 42 in bit 63 besides. -/

namespace Sys2Proof.Machine

theorem valueOrZero_eq_presented (p : Port Signed64) : valueOrZero p = presented p := by
  rw [valueOrZero, signedValue_eq_toInt, presented]

/-- An absent input counts as 0 (R136). -/
theorem presented_of_absent {p : Port Signed64} (h : p.present = false) : presented p = 0 := by
  simp [presented, h]

theorem morphInput_eq_presented (morph : Vector (Port Signed64) 43) (i : Nat) :
    morphInput morph i = presented (morph.toList.getD i noValue) := by
  rw [morphInput, List.getD_eq_getElem?_getD]
  cases morph.toList[i]? with
  | none => rfl
  | some p => exact valueOrZero_eq_presented p

theorem b0Fields_eq (app : AppAttrs (Port Signed64)) :
    b0Fields app = adjacentFields 6 7 fun k => presented (attrAt app k) := by
  simp only [b0Fields, adjacentFields, valueOrZero_eq_presented]

theorem b1Fields_eq (morph : Vector (Port Signed64) 43) :
    b1Fields morph = adjacentFields 3 21 fun i => presented (morph.toList.getD i noValue) := by
  simp only [b1Fields, adjacentFields, morphInput_eq_presented]

theorem b2Fields_eq (morph : Vector (Port Signed64) 43) :
    b2Fields morph = adjacentFields 3 21 (fun i => presented (morph.toList.getD (21 + i) noValue)) ++
      [⟨63, 1, presented (morph.toList.getD 42 noValue)⟩] := by
  simp only [b2Fields, adjacentFields, morphInput_eq_presented]

theorem b2Fields_apart (morph : Vector (Port Signed64) 43) : (b2Fields morph).Pairwise FieldValue.Apart := by
  rw [b2Fields_eq, List.pairwise_append]
  refine ⟨adjacentFields_apart _ _ _, List.pairwise_singleton _ _, fun f hf g hg => FieldValue.apart_of_le ?_⟩
  rw [List.mem_singleton.mp hg]
  exact adjacentFields_end_le hf

theorem b0_lt (app : AppAttrs (Port Signed64)) : orFields (b0Fields app) < 2 ^ 42 := by
  rw [b0Fields_eq]
  exact orFields_lt fun _ => adjacentFields_end_le

theorem b1_lt (morph : Vector (Port Signed64) 43) : orFields (b1Fields morph) < 2 ^ 63 := by
  rw [b1Fields_eq]
  exact orFields_lt fun _ => adjacentFields_end_le

theorem b2_lt (morph : Vector (Port Signed64) 43) : orFields (b2Fields morph) < 2 ^ 64 := by
  refine orFields_lt fun f hf => ?_
  rw [b2Fields_eq, List.mem_append, List.mem_singleton] at hf
  rcases hf with hf | rfl
  · exact (adjacentFields_end_le hf).trans (by decide)
  · exact le_rfl

/-- `APP[k]` in B0 (R81, R137). -/
theorem bits_b0 (app : AppAttrs (Port Signed64)) {k : Nat} (hk : k < 7) :
    bits (orFields (b0Fields app)) (6 * k + 5) (6 * k) = nearest 63 (presented (attrAt app k)) := by
  rw [b0Fields_eq]
  exact bits_orFields (adjacentFields_apart _ _ _) (mem_adjacentFields.mpr ⟨k, hk, rfl⟩) (by decide)

/-- Morphs 0..20 in B1 (R82, R137). -/
theorem bits_b1 (morph : Vector (Port Signed64) 43) {i : Nat} (hi : i < 21) :
    bits (orFields (b1Fields morph)) (3 * i + 2) (3 * i) = nearest 7 (presented (morph.toList.getD i noValue)) := by
  rw [b1Fields_eq]
  exact bits_orFields (adjacentFields_apart _ _ _) (mem_adjacentFields.mpr ⟨i, hi, rfl⟩) (by decide)

/-- Morphs 21..41 in B2 (R83, R137). -/
theorem bits_b2 (morph : Vector (Port Signed64) 43) {i : Nat} (hi : i < 21) :
    bits (orFields (b2Fields morph)) (3 * i + 2) (3 * i) =
      nearest 7 (presented (morph.toList.getD (21 + i) noValue)) := by
  refine bits_orFields (b2Fields_apart morph) (wid := 3) ?_ (by decide)
  rw [b2Fields_eq]
  exact List.mem_append_left _ (mem_adjacentFields.mpr ⟨i, hi, rfl⟩)

/-- Morph 42 in bit 63 of B2 (R83, R137). -/
theorem bits_b2_63 (morph : Vector (Port Signed64) 43) :
    bits (orFields (b2Fields morph)) 63 63 = nearest 1 (presented (morph.toList.getD 42 noValue)) := by
  refine bits_orFields (b2Fields_apart morph) (off := 63) (wid := 1) ?_ (by decide)
  rw [b2Fields_eq]
  exact List.mem_append_right _ (List.mem_singleton_self _)

/-- The 64 digits of a generated text. -/
def generatedDigits (morph : Vector (Port Signed64) 43) (app : AppAttrs (Port Signed64)) : List Byte :=
  blocksText (orFields (b0Fields app)) (orFields (b1Fields morph)) (orFields (b2Fields morph)) 0

theorem generate_eq (morph : Vector (Port Signed64) 43) (app : AppAttrs (Port Signed64)) :
    generate morph app = [char0, charx] ++ generatedDigits morph app := by
  simp only [generate, generatedDigits, blocksText, List.append_assoc]

theorem exec_fcGenerate (morph : Vector (Port Signed64) 43) (app : AppAttrs (Port Signed64)) (s : State) :
    exec (.fcGenerate morph app) s =
      .next (deliver (.ok (.fcGenerate ([char0, charx] ++ generatedDigits morph app))) s) := by
  rw [← generate_eq]
  rfl

/-- Settles O32: the blocks of the text are the ORs of their fields, and each field keeps its clamped input. -/
theorem fcGenerateWritesEveryField : Obligations.FcGenerateWritesEveryField := by
  intro morph app s
  refine ⟨(Laws.SelectsItself.fcGenerate morph app).1, generatedDigits morph app, exec_fcGenerate morph app s, rfl,
    length_blocksText _ _ _ _, fun _ => mem_hexDigits_of_mem_blocksText, ?_⟩
  obtain ⟨hb0, hb1, hb2, hb3⟩ : blockValue (generatedDigits morph app) 0 = orFields (b0Fields app) ∧
      blockValue (generatedDigits morph app) 1 = orFields (b1Fields morph) ∧
      blockValue (generatedDigits morph app) 2 = orFields (b2Fields morph) ∧
      blockValue (generatedDigits morph app) 3 = 0 :=
    blockValue_blocksText ((b0_lt app).trans (by decide)) ((b1_lt morph).trans (by decide)) (b2_lt morph) (by decide)
  rw [hb0, hb1, hb2, hb3]
  have happ {k : Nat} (hk : k < 7) := bits_b0 app hk
  exact ⟨happ (k := 0) (by decide), happ (k := 1) (by decide), happ (k := 2) (by decide), happ (k := 3) (by decide),
    happ (k := 4) (by decide), happ (k := 5) (by decide), happ (k := 6) (by decide),
    bits_of_lt 63 (b0_lt app), fun i => bits_b1 morph, bits_of_lt 63 (b1_lt morph), fun i => bits_b2 morph,
    bits_b2_63 morph, rfl⟩

/-- The text depends on the presented numbers only. -/
theorem generatedDigits_congr {m m' : Vector (Port Signed64) 43} {a a' : AppAttrs (Port Signed64)}
    (hmorph : ∀ i < 43, presented (m.toList.getD i noValue) = presented (m'.toList.getD i noValue))
    (happ : ∀ k < 7, presented (attrAt a k) = presented (attrAt a' k)) :
    generatedDigits m a = generatedDigits m' a' := by
  have hb0 : b0Fields a = b0Fields a' := by
    rw [b0Fields_eq, b0Fields_eq, adjacentFields_congr happ]
  have hb1 : b1Fields m = b1Fields m' := by
    rw [b1Fields_eq, b1Fields_eq, adjacentFields_congr fun i hi => hmorph i (by omega)]
  have hb2 : b2Fields m = b2Fields m' := by
    rw [b2Fields_eq, b2Fields_eq, adjacentFields_congr fun i hi => hmorph (21 + i) (by omega), hmorph 42 (by decide)]
  rw [generatedDigits, generatedDigits, hb0, hb1, hb2]

theorem generatedDigits_of_presented_zero {m : Vector (Port Signed64) 43} {a : AppAttrs (Port Signed64)}
    (hmorph : ∀ i < 43, presented (m.toList.getD i noValue) = 0) (happ : ∀ k < 7, presented (attrAt a k) = 0) :
    generatedDigits m a = List.replicate 64 char0 := by
  have hb0 : orFields (b0Fields a) = 0 := by
    rw [b0Fields_eq]
    exact orFields_eq_zero (adjacentFields_values_zero happ)
  have hb1 : orFields (b1Fields m) = 0 := by
    rw [b1Fields_eq]
    exact orFields_eq_zero (adjacentFields_values_zero fun i hi => hmorph i (by omega))
  have hb2 : orFields (b2Fields m) = 0 := by
    rw [b2Fields_eq]
    refine orFields_eq_zero (List.forall_mem_append.mpr ⟨adjacentFields_values_zero fun i hi => ?_, ?_⟩)
    · exact hmorph (21 + i) (by omega)
    · exact List.forall_mem_singleton.mpr (hmorph 42 (by decide))
  rw [generatedDigits, hb0, hb1, hb2, blocksText, hex16_zero]
  simp only [List.replicate_append_replicate]

/-- Settles O33: equal presented numbers give equal fields, and an absent input presents 0. -/
theorem fcGenerateTakesAbsentInputsAsZero : Obligations.FcGenerateTakesAbsentInputsAsZero := by
  constructor
  · intro m m' a a' s hmorph happ
    rw [exec_fcGenerate, exec_fcGenerate, generatedDigits_congr hmorph happ]
  · intro m a s hmorph happ
    rw [exec_fcGenerate, generatedDigits_of_presented_zero
      (fun i hi => presented_of_absent (hmorph i hi)) (fun k hk => presented_of_absent (happ k hk))]
    rfl

end Sys2Proof.Machine

/-! PROOFS. The two operations of the Character Record unit answer OK from 89 bytes on and refuse anything shorter
(R161, R172). -/

namespace Sys2Proof.Machine

theorem exec_crRead_of_short {buf : List Byte} (h : buf.length < 89) (s : State) :
    exec (.crRead buf) s = .next (deliver (.error .shortBuffer) s) := by
  have hread : readRecord buf = .error .shortBuffer := if_pos h
  exact (conclude_eq_error_iff ((readRecord buf).map .crRead) _ s).mpr (by rw [hread]; rfl)

theorem exec_crRead_of_le {buf : List Byte} (h : 89 ≤ buf.length) (s : State) :
    exec (.crRead buf) s = .next (deliver (.ok (.crRead (recordOf buf))) s) := by
  have hread : readRecord buf = .ok (recordOf buf) := if_neg (by omega)
  exact (conclude_eq_ok_iff ((readRecord buf).map .crRead) _ s).mpr (by rw [hread]; rfl)

theorem writeRecord_of_short (p : Params) {template : List Byte} (h : template.length < 89) (ov : Overrides) :
    writeRecord p template ov = .error .shortBuffer := if_pos h

theorem writeRecord_of_le (p : Params) {template : List Byte} (h : 89 ≤ template.length) (ov : Overrides) :
    writeRecord p template ov = .ok (newBuffer p template ov) := if_neg (by omega)

theorem exec_crWrite_of_short {template : List Byte} (h : template.length < 89) (ov : Overrides) (s : State) :
    exec (.crWrite template ov) s = .next (deliver (.error .shortBuffer) s) :=
  (conclude_eq_error_iff ((writeRecord Config.params template ov).map .crWrite) _ s).mpr
    (by rw [writeRecord_of_short _ h]; rfl)

theorem exec_crWrite_of_le {template : List Byte} (h : 89 ≤ template.length) (ov : Overrides) (s : State) :
    exec (.crWrite template ov) s =
      .next (deliver (.ok (.crWrite (newBuffer Config.params template ov))) s) :=
  (conclude_eq_ok_iff ((writeRecord Config.params template ov).map .crWrite) _ s).mpr
    (by rw [writeRecord_of_le _ h]; rfl)

/-- Settles O41: the length decides between the two answers of each operation. -/
theorem shortBufferIsRefused : Obligations.ShortBufferIsRefused := by
  refine fun buf ov s => ⟨fun hshort => ?_, fun hle => ?_⟩
  · exact ⟨exec_crRead_of_short hshort s, exec_crWrite_of_short hshort ov s⟩
  · exact ⟨⟨recordOf buf, exec_crRead_of_le hle s, rfl⟩, _, exec_crWrite_of_le hle ov s⟩

end Sys2Proof.Machine

/-! PROOFS. The fields of a read record (R162 to R168). A little-endian read has the bits of its bytes side by side, so
the two packed fields of the word at 16 are bits of bytes 16 and 17. -/

namespace Sys2Proof.Machine

theorem length_slice (buf : List Byte) (off n : Nat) : (slice buf off n).length = min n (buf.length - off) := by
  simp [slice]

theorem fittingName_le (n len : Nat) : fittingName n len ≤ len - 4 := Nat.min_le_right _ _

theorem memRead_lt (buf : List Byte) (off n : Nat) : memRead buf off n < 2 ^ (8 * n) := by
  induction n with
  | zero => simp
  | succ n ih =>
    have hbyte : (byteAt buf (off + n)).toNat ≤ 2 ^ 8 - 1 := Nat.le_sub_one_of_lt (byteAt buf (off + n)).isLt
    have hmul := Nat.mul_le_mul_left (2 ^ (8 * n)) hbyte
    rw [memRead_succ, Nat.mul_succ, Nat.pow_add]
    omega

/-- Byte 16's low six bits (R166). -/
theorem extract_memRead_hairColor (buf : List Byte) :
    extract (memRead buf 16 2) 0 6 = (byteAt buf 16).toNat &&& 0x3F := by
  rw [extract_eq, memRead_two, Nat.and_two_pow_sub_one_eq_mod _ 6]
  omega

/-- Byte 16's two high bits and, above them, byte 17's low four (R166). -/
theorem extract_memRead_age (buf : List Byte) :
    extract (memRead buf 16 2) 6 6 =
      (((byteAt buf 16).toNat >>> 6) &&& 0x3) ||| (((byteAt buf 17).toNat &&& 0xF) <<< 2) := by
  have hlow : (byteAt buf 16).toNat >>> 6 &&& 0x3 < 2 ^ 2 := Nat.and_lt_two_pow _ (by decide)
  have h16 : (byteAt buf 16).toNat < 2 ^ 8 := (byteAt buf 16).isLt
  have hword : memRead buf 16 2 = (byteAt buf 16).toNat + 2 ^ 8 * (byteAt buf 17).toNat := memRead_two buf 16
  rw [Nat.or_comm, ← Nat.shiftLeft_add_eq_or_of_lt hlow, extract_eq, hword, Nat.shiftLeft_eq,
    Nat.shiftRight_eq_div_pow, Nat.and_two_pow_sub_one_eq_mod _ 2, Nat.and_two_pow_sub_one_eq_mod _ 4]
  omega

/-- The 6-bit result ports lose no bit of their field. -/
theorem toNat_ofNat_extract_six (w off : Nat) : (BitVec.ofNat 6 (extract w off 6)).toNat = extract w off 6 := by
  rw [BitVec.toNat_ofNat, Nat.mod_eq_of_lt (extract_lt w off 6)]

theorem recordOf_banner_toNat (buf : List Byte) : (recordOf buf).banner.toNat = memRead buf 9 4 := by
  rw [recordOf, BitVec.toNat_ofNat, Nat.mod_eq_of_lt (memRead_lt buf 9 4)]

/-- Settles O42: each result port is one read of the buffer, and none of them truncates. -/
theorem crReadDeliversEveryField : Obligations.CrReadDeliversEveryField := by
  intro buf s hlen
  have hname : (recordOf buf).name.length = (recordOf buf).nlen :=
    (length_slice _ _ _).trans (Nat.min_eq_left (fittingName_le _ _))
  have hcolor := (toNat_ofNat_extract_six _ 0).trans (extract_memRead_hairColor buf)
  have hage := (toNat_ofNat_extract_six _ 6).trans (extract_memRead_age buf)
  exact ⟨(Laws.SelectsItself.crRead buf).1, recordOf buf, exec_crRead_of_le hlen s, rfl, rfl, rfl, hname,
    fun j hj => byteAt_slice buf 4 hj, rfl, (recordOf_banner_toNat buf).trans (memRead_four buf 9), rfl, rfl,
    hcolor, hage, fun j hj => getD_tabulate _ _ hj, rfl⟩

end Sys2Proof.Machine

/-! PROOFS. What each override of CR.WRITE leaves unchanged (R176 to R179): a byte-wise override every byte outside its
own, a packed override every bit outside its own. -/

namespace Sys2Proof.Machine

/-- An observation that the write of a present override does not change, the override does not change. -/
theorem applyIfPresent_observe {α β γ : Type} (observe : β → γ) {p : Port α} {f : α → β → β} {x : β}
    (h : p.present = true → observe (f p.value x) = observe x) : observe (applyIfPresent p f x) = observe x := by
  cases hp : p.present with
  | false => rw [applyIfPresent_absent hp]
  | true => rw [applyIfPresent_present hp, h hp]

theorem byteAt_set_ne {buf : List Byte} {i a : Nat} (b : Byte) (h : i ≠ a) :
    byteAt (buf.set i b) a = byteAt buf a := by
  simp [byteAt, h]

/-- Outside its range a write changes nothing, whether or not the range is inside the buffer. -/
theorem byteAt_writeBytes_outside {bs buf : List Byte} {off a : Nat} (h : a < off ∨ off + bs.length ≤ a) :
    byteAt (writeBytes buf off bs) a = byteAt buf a := by
  induction bs generalizing buf off with
  | nil => rfl
  | cons b bs ih =>
    rw [List.length_cons] at h
    rw [writeBytes, ih (by omega), byteAt_set_ne b (by omega)]

theorem byteAt_writeByteField_outside {off a : Nat} (hi : BitVec 8) (v : Signed64) (out : List Byte) (h : a ≠ off) :
    byteAt (writeByteField off hi v out) a = byteAt out a :=
  byteAt_writeBytes_outside (by rw [length_leBytes]; omega)

theorem byteAt_writeBanner_outside {a : Nat} (hi : BitVec 32) (v : Signed64) (out : List Byte)
    (h : a < 9 ∨ 13 ≤ a) : byteAt (writeBanner hi v out) a = byteAt out a :=
  byteAt_writeBytes_outside (by rw [length_leBytes]; omega)

theorem byteAt_writePackedField_outside {a : Nat} (off wid : Nat) (v : Signed64) (out : List Byte)
    (h : a < 16 ∨ 18 ≤ a) : byteAt (writePackedField off wid v out) a = byteAt out a :=
  byteAt_writeBytes_outside (by rw [length_leBytes]; omega)

theorem byteAt_writeAppearance_outside {a : Nat} (bytes : Vector Byte 11) (out : List Byte) (h : a < 21 ∨ 32 ≤ a) :
    byteAt (writeAppearance bytes out) a = byteAt out a :=
  byteAt_writeBytes_outside (by rw [Vector.length_toList]; omega)

/-! Single bits of the packed word. -/

/-- A little-endian read has the bits of its bytes side by side (R44). -/
theorem testBit_memRead (buf : List Byte) (off : Nat) {n i k : Nat} (hi : i < n) (hk : k < 8) :
    (memRead buf off n).testBit (8 * i + k) = (byteAt buf (off + i)).getLsbD k := by
  induction n with
  | zero => omega
  | succ n ih =>
    rw [memRead_succ, Nat.add_comm, Nat.testBit_two_pow_mul_add _ (memRead_lt buf off n)]
    rcases Nat.lt_succ_iff_lt_or_eq.mp hi with hlt | rfl
    · rw [if_pos (by omega), ih hlt]
    · rw [if_neg (by omega), Nat.add_sub_cancel_left, BitVec.getLsbD]

/-- Bit `k` of byte `off+i` of a written range is bit `8i+k` of the value. -/
theorem getLsbD_byteAt_memWrite {buf : List Byte} {off n i k : Nat} (v : Nat) (h : off + n ≤ buf.length) (hi : i < n)
    (hk : k < 8) : (byteAt (memWrite buf off n v) (off + i)).getLsbD k = v.testBit (8 * i + k) := by
  rw [BitVec.getLsbD, byteAt_memWrite_inside v h hi, testBit_bits, Nat.add_sub_cancel_left, Nat.add_comm k]
  simp [hk]

/-- Bit `k` of the byte at offset `a`. -/
def bitAt (buf : List Byte) (a k : Nat) : Bool := (byteAt buf a).getLsbD k

theorem bitAt_of_ge (buf : List Byte) (a : Nat) {k : Nat} (h : 8 ≤ k) : bitAt buf a k = false :=
  BitVec.getLsbD_of_ge _ _ h

theorem bitAt_congr {buf buf' : List Byte} {a a' : Nat} (h : byteAt buf a = byteAt buf' a') (k : Nat) :
    bitAt buf a k = bitAt buf' a' k := by
  rw [bitAt, h, bitAt]

theorem byteAt_eq_of_bitAt_eq {buf buf' : List Byte} {a : Nat} (h : ∀ k, bitAt buf a k = bitAt buf' a k) :
    byteAt buf a = byteAt buf' a :=
  BitVec.eq_of_getLsbD_eq fun k _ => h k

theorem eq_of_bitAt_eq {buf buf' : List Byte} (hlen : buf.length = buf'.length)
    (h : ∀ a k, bitAt buf a k = bitAt buf' a k) : buf = buf' := by
  refine List.ext_getElem hlen fun a ha ha' => ?_
  rw [← byteAt_eq_getElem ha, ← byteAt_eq_getElem ha', byteAt_eq_of_bitAt_eq (h a)]

/-- A packed override changes no bit of the word outside its field (R177). -/
theorem bitAt_writePackedField_outside {off wid a k : Nat} (v : Signed64) {out : List Byte} (hlen : 18 ≤ out.length)
    (hk : k < 8) (h : ∀ i < 2, a = 16 + i → 8 * i + k < off ∨ off + wid ≤ 8 * i + k) :
    bitAt (writePackedField off wid v out) a k = bitAt out a k := by
  by_cases hword : 16 ≤ a ∧ a < 18
  · obtain ⟨i, hi, rfl⟩ : ∃ i < 2, a = 16 + i := ⟨a - 16, by omega⟩
    have hpack : (pack off wid (signedValue v)).testBit (8 * i + k) = false :=
      testBit_pack_of_not_covers (f := ⟨off, wid, signedValue v⟩) fun ⟨hlo, hhi⟩ => by
        have := h i hi rfl
        simp only at hlo hhi
        omega
    have hfield : (decide (off ≤ 8 * i + k) && decide (8 * i + k - off < wid)) = false := by
      have := h i hi rfl
      rw [← Bool.decide_and, decide_eq_false_iff_not]
      omega
    have hwidth : 8 * i + k < 16 := by omega
    rw [bitAt, writePackedField, getLsbD_byteAt_memWrite _ hlen hi hk, testBit_insert, hpack, hfield,
      testBit_memRead _ _ hi hk, decide_eq_true hwidth, bitAt]
    simp
  · exact bitAt_congr (byteAt_writePackedField_outside _ _ _ _ (by omega)) k

end Sys2Proof.Machine

/-! PROOFS. The overrides at fixed offsets, one after the other (R170). -/

namespace Sys2Proof.Machine

/-- The overrides of a request without its name: the ones at fixed offsets. -/
def withoutName (ov : Overrides) : Overrides := { ov with name := ⟨false, []⟩ }

/-- What a request writes is its name's bytes and its fixed overrides' bits. -/
theorem writesBit_iff (template : List Byte) (ov : Overrides) (a k : Nat) :
    writesBit template ov a k ↔
      (ov.name.present = true ∧ (a = 0 ∨ (4 ≤ a ∧ a < 4 + writtenName template ov))) ∨
        writesBit template (withoutName ov) a k := by
  simp only [writesBit, withoutName, Bool.false_eq_true, false_and, false_or]

/-- The frame of the fixed overrides (R179): every bit that no present one writes is as before. -/
theorem bitAt_writeFixed (p : Params) {ov : Overrides} {template out : List Byte} {a k : Nat}
    (hlen : 18 ≤ out.length) (h : ¬ writesBit template (withoutName ov) a k) :
    bitAt (writeFixed p ov out) a k = bitAt out a k := by
  rcases Nat.lt_or_ge k 8 with hk | hk
  · simp only [writesBit, withoutName, not_or, not_and] at h
    obtain ⟨-, hsex, hbanner, hhairstyle, hskin, hcolor, hage, happearance⟩ := h
    have observe {α : Type} {port : Port α} {f : α → List Byte → List Byte} {x : List Byte} :=
      applyIfPresent_observe (bitAt · a k) (p := port) (f := f) (x := x)
    rw [writeFixed,
      observe fun hp => bitAt_congr (byteAt_writeAppearance_outside _ _ (by have := happearance hp; omega)) k,
      observe fun hp => bitAt_writePackedField_outside _ (by simpa [length_applyIfPresent]) hk
        (by have := hage hp; omega),
      observe fun hp => bitAt_writePackedField_outside _ (by simpa [length_applyIfPresent]) hk
        (by have := hcolor hp; omega),
      observe fun hp => bitAt_congr (byteAt_writeByteField_outside _ _ _ (hskin hp)) k,
      observe fun hp => bitAt_congr (byteAt_writeByteField_outside _ _ _ (hhairstyle hp)) k,
      observe fun hp => bitAt_congr (byteAt_writeBanner_outside _ _ _ (by have := hbanner hp; omega)) k,
      observe fun hp => bitAt_congr (byteAt_writeByteField_outside _ _ _ (hsex hp)) k]
  · rw [bitAt_of_ge _ _ hk, bitAt_of_ge _ _ hk]

/-! The fields of the fixed overrides, each clamped (R173, R176, R178). -/

theorem toNat_clamp_signedValue (hi : Nat) (v : Signed64) :
    (clamp (signedValue v) 0 hi).toNat = nearest hi v.toInt := by
  rw [clamp_eq_max_min (Int.natCast_nonneg _), signedValue_eq_toInt, nearest]

theorem nearest_le (hi : Nat) (v : Int) : nearest hi v ≤ hi := by
  rw [nearest]
  omega

/-- The byte of a one-byte override, present or absent. -/
theorem byteAt_byteOverride {off : Nat} (port : Port Signed64) (hi : BitVec 8) {out : List Byte}
    (h : off < out.length) :
    (byteAt (applyIfPresent port (writeByteField off hi) out) off).toNat =
      stored port hi.toNat (byteAt out off).toNat := by
  cases hp : port.present with
  | false => rw [applyIfPresent_absent hp, stored, hp, if_neg Bool.false_ne_true]
  | true =>
    have hlt : nearest hi.toNat port.value.toInt < 2 ^ 8 := (nearest_le _ _).trans_lt hi.isLt
    rw [applyIfPresent_present hp, byteAt_writeByteField _ _ _ _ _ h, if_pos rfl, toNat_clamp_signedValue,
      BitVec.toNat_ofNat, Nat.mod_eq_of_lt hlt, stored, hp, if_pos rfl]

/-- The four bytes of the banner override, present or absent. -/
theorem byteAt_bannerOverride (port : Port Signed64) (hi : BitVec 32) {out : List Byte} (h : 13 ≤ out.length)
    {k : Nat} (hk : k < 4) :
    byteAt (applyIfPresent port (writeBanner hi) out) (9 + k) =
      if port.present then BitVec.ofNat 8 (bits (nearest hi.toNat port.value.toInt) (8 * k + 7) (8 * k))
      else byteAt out (9 + k) := by
  cases hp : port.present with
  | false => rw [applyIfPresent_absent hp, if_neg Bool.false_ne_true]
  | true =>
    rw [applyIfPresent_present hp, byteAt_writeBanner _ _ _ _ h, if_pos (by omega), toNat_clamp_signedValue,
      Nat.add_sub_cancel_left, if_pos rfl]

/-- The eleven bytes of the appearance override, present or absent. -/
theorem byteAt_appearanceOverride (port : Port (Vector Byte 11)) {out : List Byte} (h : 32 ≤ out.length) {j : Nat}
    (hj : j < 11) :
    byteAt (applyIfPresent port writeAppearance out) (21 + j) =
      if port.present then byteAt port.value.toList j else byteAt out (21 + j) := by
  cases hp : port.present with
  | false => rw [applyIfPresent_absent hp, if_neg Bool.false_ne_true]
  | true =>
    rw [applyIfPresent_present hp, byteAt_writeAppearance _ _ _ h, if_pos (by omega), Nat.add_sub_cancel_left,
      if_pos rfl]

theorem byteAt_byteOverride_outside {off a : Nat} (port : Port Signed64) (hi : BitVec 8) (out : List Byte)
    (h : a ≠ off) : byteAt (applyIfPresent port (writeByteField off hi) out) a = byteAt out a :=
  applyIfPresent_observe (byteAt · a) fun _ => byteAt_writeByteField_outside _ _ _ h

theorem byteAt_bannerOverride_outside {a : Nat} (port : Port Signed64) (hi : BitVec 32) (out : List Byte)
    (h : a < 9 ∨ 13 ≤ a) : byteAt (applyIfPresent port (writeBanner hi) out) a = byteAt out a :=
  applyIfPresent_observe (byteAt · a) fun _ => byteAt_writeBanner_outside _ _ _ h

theorem byteAt_packedOverride_outside {a : Nat} (port : Port Signed64) (off wid : Nat) (out : List Byte)
    (h : a < 16 ∨ 18 ≤ a) : byteAt (applyIfPresent port (writePackedField off wid) out) a = byteAt out a :=
  applyIfPresent_observe (byteAt · a) fun _ => byteAt_writePackedField_outside _ _ _ _ h

theorem byteAt_appearanceOverride_outside {a : Nat} (port : Port (Vector Byte 11)) (out : List Byte)
    (h : a < 21 ∨ 32 ≤ a) : byteAt (applyIfPresent port writeAppearance out) a = byteAt out a :=
  applyIfPresent_observe (byteAt · a) fun _ => byteAt_writeAppearance_outside _ _ h

theorem writeFixed_sex (p : Params) (ov : Overrides) {out : List Byte} (h : 5 < out.length) :
    (byteAt (writeFixed p ov out) 5).toNat = stored ov.sex p.sexMax.toNat (byteAt out 5).toNat := by
  simp (disch := omega) only [writeFixed, byteAt_appearanceOverride_outside, byteAt_packedOverride_outside,
    byteAt_bannerOverride_outside, byteAt_byteOverride_outside]
  exact byteAt_byteOverride ov.sex p.sexMax h

theorem writeFixed_hairstyle (p : Params) (ov : Overrides) {out : List Byte} (h : 13 < out.length) :
    (byteAt (writeFixed p ov out) 13).toNat = stored ov.hairstyle p.hairstyleMax.toNat (byteAt out 13).toNat := by
  simp (disch := omega) only [writeFixed, byteAt_appearanceOverride_outside, byteAt_packedOverride_outside,
    byteAt_byteOverride_outside]
  rw [byteAt_byteOverride _ _ (by simpa [length_applyIfPresent]), byteAt_bannerOverride_outside _ _ _ (by decide),
    byteAt_byteOverride_outside _ _ _ (by decide)]

theorem writeFixed_skin (p : Params) (ov : Overrides) {out : List Byte} (h : 14 < out.length) :
    (byteAt (writeFixed p ov out) 14).toNat = stored ov.skin p.skinMax.toNat (byteAt out 14).toNat := by
  simp (disch := omega) only [writeFixed, byteAt_appearanceOverride_outside, byteAt_packedOverride_outside]
  rw [byteAt_byteOverride _ _ (by simpa [length_applyIfPresent]), byteAt_byteOverride_outside _ _ _ (by decide),
    byteAt_bannerOverride_outside _ _ _ (by decide), byteAt_byteOverride_outside _ _ _ (by decide)]

theorem writeFixed_banner (p : Params) (ov : Overrides) {out : List Byte} (h : 13 ≤ out.length) {k : Nat}
    (hk : k < 4) :
    byteAt (writeFixed p ov out) (9 + k) =
      if ov.banner.present then
        BitVec.ofNat 8 (bits (nearest p.bannerMax.toNat ov.banner.value.toInt) (8 * k + 7) (8 * k))
      else byteAt out (9 + k) := by
  simp (disch := omega) only [writeFixed, byteAt_appearanceOverride_outside, byteAt_packedOverride_outside,
    byteAt_byteOverride_outside]
  rw [byteAt_bannerOverride _ _ (by simpa [length_applyIfPresent]) hk, byteAt_byteOverride_outside _ _ _ (by omega)]

theorem writeFixed_appearance (p : Params) (ov : Overrides) {out : List Byte} (h : 32 ≤ out.length) {j : Nat}
    (hj : j < 11) :
    byteAt (writeFixed p ov out) (21 + j) =
      if ov.appearance.present then byteAt ov.appearance.value.toList j else byteAt out (21 + j) := by
  rw [writeFixed, byteAt_appearanceOverride _ (by simpa [length_applyIfPresent]) hj]
  simp (disch := omega) only [byteAt_packedOverride_outside, byteAt_bannerOverride_outside,
    byteAt_byteOverride_outside]

end Sys2Proof.Machine

/-! PROOFS. The whole CR.WRITE: with a name override the fixed overrides come before or after it (R175), and the two
orders agree in every bit that no fixed override writes. -/

namespace Sys2Proof.Machine

theorem newBuffer_of_name_absent (p : Params) (template : List Byte) {ov : Overrides} (h : ov.name.present = false) :
    newBuffer p template ov = writeFixed p ov template := by
  simp [newBuffer, writeNameWhen, h]

theorem newBuffer_of_nameFirst {p : Params} (template : List Byte) {ov : Overrides} (h : ov.name.present = true)
    (horder : p.wrNameOrder = .nameFirst) :
    newBuffer p template ov = writeFixed p ov (writeName ov.name.value template) := by
  simp [newBuffer, writeNameWhen, h, horder]

theorem newBuffer_of_nameLast {p : Params} (template : List Byte) {ov : Overrides} (h : ov.name.present = true)
    (horder : p.wrNameOrder = .nameLast) :
    newBuffer p template ov = writeName ov.name.value (writeFixed p ov template) := by
  simp [newBuffer, writeNameWhen, h, horder]

/-- Two buffers of one length that agree in a bit still agree in it after the same name is written. -/
theorem bitAt_writeName_congr (name : List Byte) {out out' : List Byte} {a k : Nat} (hlen : 4 ≤ out.length)
    (hlen' : out'.length = out.length) (h : bitAt out' a k = bitAt out a k) :
    bitAt (writeName name out') a k = bitAt (writeName name out) a k := by
  rw [bitAt, byteAt_writeName _ _ _ (hlen.trans_eq hlen'.symm), bitAt, byteAt_writeName _ _ _ hlen, hlen']
  split
  · rfl
  · split
    · rfl
    · exact h

/-- With a name, the bits that no fixed override writes are those of the name written alone, in either order. -/
theorem bitAt_newBuffer_named (p : Params) {template : List Byte} {ov : Overrides} {a k : Nat}
    (hlen : 89 ≤ template.length) (hname : ov.name.present = true)
    (h : ¬ writesBit template (withoutName ov) a k) :
    bitAt (newBuffer p template ov) a k = bitAt (writeName ov.name.value template) a k := by
  cases horder : p.wrNameOrder with
  | nameFirst =>
    rw [newBuffer_of_nameFirst template hname horder]
    exact bitAt_writeFixed p (by rw [length_writeName]; omega) h
  | nameLast =>
    rw [newBuffer_of_nameLast template hname horder]
    exact bitAt_writeName_congr _ (by omega) (length_writeFixed p ov template) (bitAt_writeFixed p (by omega) h)

/-- The name alone changes nothing outside byte 0 and the bytes it covers. -/
theorem byteAt_writeName_outside {name template : List Byte} {a : Nat} (hlen : 4 ≤ template.length) (hzero : a ≠ 0)
    (h : a < 4 ∨ 4 + fittingName name.length template.length ≤ a) :
    byteAt (writeName name template) a = byteAt template a := by
  rw [byteAt_writeName _ _ _ hlen, if_neg hzero, if_neg (by omega)]

theorem byteAt_writeName_count (name : List Byte) {template : List Byte} (hlen : 4 ≤ template.length) :
    byteAt (writeName name template) 0 = BitVec.ofNat 8 (fittingName name.length template.length) := by
  rw [byteAt_writeName _ _ _ hlen, if_pos rfl]

theorem byteAt_writeName_inside (name : List Byte) {template : List Byte} {j : Nat} (hlen : 4 ≤ template.length)
    (hj : j < fittingName name.length template.length) :
    byteAt (writeName name template) (4 + j) = byteAt name j := by
  rw [byteAt_writeName _ _ _ hlen, if_neg (by omega), if_pos (by omega), Nat.add_sub_cancel_left]

theorem writtenName_of_present {ov : Overrides} (template : List Byte) (h : ov.name.present = true) :
    writtenName template ov = fittingName ov.name.value.length template.length := if_pos h

/-- The frame of CR.WRITE (R179): every bit that no present override writes is the template's. -/
theorem bitAt_newBuffer (p : Params) {template : List Byte} {ov : Overrides} {a k : Nat} (hlen : 89 ≤ template.length)
    (h : ¬ writesBit template ov a k) : bitAt (newBuffer p template ov) a k = bitAt template a k := by
  rw [writesBit_iff, not_or] at h
  obtain ⟨hname, hfixed⟩ := h
  cases hp : ov.name.present with
  | false =>
    rw [newBuffer_of_name_absent p template hp]
    exact bitAt_writeFixed p (by omega) hfixed
  | true =>
    have houtside := not_and.mp hname hp
    rw [writtenName_of_present template hp] at houtside
    rw [bitAt_newBuffer_named p hlen hp hfixed]
    exact bitAt_congr (byteAt_writeName_outside (by omega) (by omega) (by omega)) k

/-- No fixed override writes byte 0, so it holds the name's count. -/
theorem newBuffer_count (p : Params) {template : List Byte} {ov : Overrides} (hlen : 89 ≤ template.length)
    (hname : ov.name.present = true) :
    byteAt (newBuffer p template ov) 0 = BitVec.ofNat 8 (fittingName ov.name.value.length template.length) := by
  rw [← byteAt_writeName_count _ (by omega)]
  exact byteAt_eq_of_bitAt_eq fun k => bitAt_newBuffer_named p hlen hname (by simp [writesBit, withoutName])

theorem fittingName_lt {name : List Byte} (h : nameFits name = true) (len : Nat) :
    fittingName name.length len < 2 ^ 8 := by
  have hle : name.length ≤ 255 := of_decide_eq_true h
  exact (Nat.min_le_left _ _).trans_lt (Nat.lt_succ_of_le hle)

/-- Settles O43: without a name the new buffer is that of the fixed overrides alone, whose fields are clamped. -/
theorem crWriteStoresClampedFields : Obligations.CrWriteStoresClampedFields := by
  intro template ov s hlen hname
  refine ⟨(Laws.SelectsItself.crWrite template ov).1, _, exec_crWrite_of_le hlen ov s, rfl, ?_⟩
  rw [newBuffer_of_name_absent _ template hname]
  exact ⟨writeFixed_sex _ ov (by omega), writeFixed_hairstyle _ ov (by omega), writeFixed_skin _ ov (by omega),
    fun k => writeFixed_banner _ ov (by omega), fun j => writeFixed_appearance _ ov (by omega)⟩

/-- Settles O45: the frame of CR.WRITE, which fixes the whole buffer where nothing is written. -/
theorem crWriteKeepsEverythingElse : Obligations.CrWriteKeepsEverythingElse := by
  intro template ov s hlen
  have hframe (a k : Nat) := bitAt_newBuffer Config.params (a := a) (k := k) (ov := ov) hlen
  exact ⟨_, exec_crWrite_of_le hlen ov s, length_newBuffer _ _ _, hframe,
    fun hnone => eq_of_bitAt_eq (length_newBuffer _ _ _) fun a k => hframe a k (hnone a k)⟩

/-- Settles O46: where no fixed override writes, the new buffer is the template with the name alone written. -/
theorem crWriteStoresTheName : Obligations.CrWriteStoresTheName := by
  intro template ov s hlen hfits hname others n
  have hnamed {a k : Nat} := bitAt_newBuffer_named Config.params (a := a) (k := k) hlen hname
  refine ⟨_, exec_crWrite_of_le hlen ov s, length_newBuffer _ _ _, ?count, ?inside, ?outside⟩
  case count =>
    refine (congrArg BitVec.toNat (newBuffer_count _ hlen hname)).trans ?_
    rw [BitVec.toNat_ofNat, Nat.mod_eq_of_lt (fittingName_lt hfits _)]
    rfl
  case inside =>
    intro j k hj hfixed
    exact (hnamed hfixed).trans (bitAt_congr (byteAt_writeName_inside _ (by omega) hj) k)
  case outside =>
    intro a k hzero ha hfixed
    exact (hnamed hfixed).trans (bitAt_congr (byteAt_writeName_outside (by omega) hzero ha) k)

end Sys2Proof.Machine

/-! PROOFS. Requests and operations (R70, R71): encoding and decoding agree, and only well-formed operations decode. -/

namespace Sys2Proof.Machine

/-- An 8-bit length port carries the length of every name that fits it. -/
theorem toNat_ofNat_nameLength {name : List Byte} (h : nameFits name = true) :
    (BitVec.ofNat 8 name.length).toNat = name.length := by
  have hle : name.length ≤ 255 := of_decide_eq_true h
  rw [BitVec.toNat_ofNat, Nat.mod_eq_of_lt (Nat.lt_succ_of_le hle)]

theorem decode_encode {i : Instr} (hwf : WellFormed i = true) : decode (encode i) = .ok i := by
  cases i with
  | bfExtract block off wid => exact decode_bfExtract rfl
  | bfPack off wid value => exact decode_bfPack rfl
  | fcParse text => exact decode_fcParse rfl rfl
  | fcGenerate morph app => exact decode_fcGenerate rfl
  | crRead buf => exact decode_crRead rfl rfl
  | crWrite template ov => exact decode_crWrite rfl rfl (toNat_ofNat_nameLength hwf)

/-- Settles O8: each operation's ports stand where the row of its select code reads them. -/
theorem decodeOfEncode : Obligations.DecodeOfEncode := fun _ => decode_encode

/-! A length port that disagrees with the bytes beside it (R210, U4). -/

theorem decode_fcParse_unpresentable {q : Request} (hop : q.op = 0b010#3) (hlen : q.parse.text.length ≠ q.parse.tlen) :
    decode q = .error .unpresentable := by simp [decode, hop, hlen]

theorem decode_crRead_unpresentable {q : Request} (hop : q.op = 0b100#3) (hlen : q.read.buf.length ≠ q.read.len) :
    decode q = .error .unpresentable := by simp [decode, hop, hlen]

theorem decode_crWrite_unpresentable {q : Request} (hop : q.op = 0b101#3)
    (hlen : ¬ (q.write.template.length = q.write.len ∧ q.write.name.length = q.write.nlen.toNat)) :
    decode q = .error .unpresentable := by simp [decode, hop, hlen]

/-- Settles O5: such a request does not decode, in the row of each operation that has a length port. -/
theorem mismatchedLengthPortIsRefused : Obligations.MismatchedLengthPortIsRefused := by
  intro s q rest hreq hmismatch
  have hdecode : decode q = .error .unpresentable := by
    rcases hmismatch with ⟨hop, hlen⟩ | ⟨hop, hlen⟩ | ⟨hop, hlen⟩ | ⟨hop, hlen⟩
    · exact decode_fcParse_unpresentable hop hlen
    · exact decode_crRead_unpresentable hop hlen
    · exact decode_crWrite_unpresentable hop fun hagree => hlen hagree.1
    · exact decode_crWrite_unpresentable hop fun hagree => hlen hagree.2
  exact step_of_decode_error hreq hdecode

/-- What a request that decodes names: a well-formed operation of the request's own select code. Of the rows only
CR.WRITE has a length to keep: its name is as long as an 8-bit port says. -/
theorem wellFormed_and_select_of_decode {q : Request} {i : Instr} (hdecode : decode q = .ok i) :
    WellFormed i = true ∧ selectCode i = q.op := by
  unfold decode at hdecode
  split at hdecode
  case h_1 hop => cases hdecode; exact ⟨rfl, hop.symm⟩
  case h_2 hop => cases hdecode; exact ⟨rfl, hop.symm⟩
  case h_3 hop =>
    split at hdecode
    · cases hdecode; exact ⟨rfl, hop.symm⟩
    · cases hdecode
  case h_4 hop => cases hdecode; exact ⟨rfl, hop.symm⟩
  case h_5 hop =>
    split at hdecode
    · cases hdecode; exact ⟨rfl, hop.symm⟩
    · cases hdecode
  case h_6 hop =>
    split at hdecode
    next hagree =>
      cases hdecode
      have hname : q.write.name.length ≤ 255 := by omega
      exact ⟨decide_eq_true hname, hop.symm⟩
    next => cases hdecode
  case h_7 => cases hdecode

theorem op_encode (i : Instr) : (encode i).op = selectCode i := by
  cases i <;> rfl

/-- Settles O9: what decodes is well formed, so O8 applies to it. -/
theorem encodeOfDecoded : Obligations.EncodeOfDecoded := by
  intro q i hdecode
  obtain ⟨hwf, hselect⟩ := wellFormed_and_select_of_decode hdecode
  exact ⟨hwf, (op_encode i).trans hselect, decode_encode hwf⟩

/-! The words of the opcode table (R71, R72). -/

theorem decodeTableWord_of_decode_ok {nbits w : Nat} {i : Instr}
    (hdecode : decode (requestOfTableWord nbits w) = .ok i) : decodeTableWord nbits w = some i := by
  simp [decodeTableWord, hdecode]

theorem decodeTableWord_of_decode_error {nbits w : Nat} {e : DecodeError}
    (hdecode : decode (requestOfTableWord nbits w) = .error e) : decodeTableWord nbits w = none := by
  simp [decodeTableWord, hdecode]

/-- Settles O7: each word's request has the select of its row, and every port at 0, empty or absent. -/
theorem tableWordsDecode : Obligations.TableWordsDecode :=
  ⟨decodeTableWord_of_decode_ok (decode_bfExtract rfl), decodeTableWord_of_decode_ok (decode_bfPack rfl),
    decodeTableWord_of_decode_ok (decode_fcParse rfl rfl), decodeTableWord_of_decode_ok (decode_fcGenerate rfl),
    decodeTableWord_of_decode_ok (decode_crRead rfl rfl), decodeTableWord_of_decode_ok (decode_crWrite rfl rfl rfl),
    decodeTableWord_of_decode_error (decode_reserved (.inl rfl)),
    decodeTableWord_of_decode_error (decode_reserved (.inr rfl))⟩

end Sys2Proof.Machine

/-! PROOFS. Steps and runs (R22, R23, R239): a step answers the presented request with the response its operation has
in every state, and a run answers one request after the other. -/

namespace Sys2Proof.Machine

/-- Settles O11: the four codes as the model assigns them. -/
theorem statusCodesOfResponses : Obligations.StatusCodesOfResponses := ⟨fun _ => rfl, rfl, rfl, rfl⟩

/-- Settles O1: the response is the same for every state, the reset state among them. -/
theorem resetHoldsNothingAndAnswersAsAlways : Obligations.ResetHoldsNothingAndAnswersAsAlways := by
  refine ⟨reset_requests, reset_responses, fun i s => ?_⟩
  obtain ⟨r, hexec⟩ := exec_eq_deliver i
  exact ⟨r, hexec s, hexec State.reset⟩

theorem step_of_decode_ok {s : State} {q : Request} {rest : List Request} {i : Instr} (hreq : s.requests = q :: rest)
    (hdecode : decode q = .ok i) : step s = exec i { s with requests := rest } := by
  simp [step, fetch_cons hreq, hdecode]

theorem step_of_no_request {s : State} (hreq : s.requests = []) : step s = .next s := by
  simp [step, fetch_nil hreq]

/-- Settles O2: the fetch takes the request off, and the decoded operation runs on what is left. -/
theorem stepRunsTheDecodedOperation : Obligations.StepRunsTheDecodedOperation :=
  fun _ _ _ _ hreq hdecode => step_of_decode_ok hreq hdecode

/-- Settles O3: with nothing presented the fetch answers nothing. -/
theorem stepWithoutRequestIsIdle : Obligations.StepWithoutRequestIsIdle := fun _ hreq => step_of_no_request hreq

/-- Settles O14: reset drops the presented request, and the next one stands at the head, whether it waited behind that
one or is issued later. -/
theorem resetAbandonsTheRequestInProgress : Obligations.ResetAbandonsTheRequestInProgress := by
  refine ⟨rfl, fun q rest past => ⟨rfl, fun next i hdecode => ⟨fun behind hrest => ?_, fun hrest => ?_⟩⟩⟩
  · exact step_of_decode_ok hrest hdecode
  · exact step_of_decode_ok (by simp [hrest]) hdecode

theorem answerable_iff (q : Request) : answerable q = true ↔ ∃ i, decode q = .ok i := by
  unfold answerable
  cases decode q <;> simp

/-- Settles O15: the presented request decodes, its operation delivers a response, and the requests behind it are
among those that decode. -/
theorem safeStateStepsToSafeState : Obligations.SafeStateStepsToSafeState := by
  intro s hsafe
  cases hreq : s.requests with
  | nil => exact ⟨s, step_of_no_request hreq, hsafe⟩
  | cons q rest =>
    obtain ⟨i, hdecode⟩ := (answerable_iff q).mp (hsafe q (by simp [hreq]))
    obtain ⟨r, hexec⟩ := exec_eq_deliver i
    refine ⟨_, (step_of_decode_ok hreq hdecode).trans (hexec _), fun q' hq' => hsafe q' ?_⟩
    rw [hreq]
    exact List.mem_cons_of_mem q hq'

/-- A step on the request of a well-formed operation delivers that operation's response. -/
theorem step_encode {answer : Instr → Response} (hanswer : ∀ i s, exec i s = .next (deliver (answer i) s)) {i : Instr}
    (hwf : WellFormed i = true) (rest : List Request) (past : List Response) :
    step { requests := encode i :: rest, responses := past } =
      .next { requests := rest, responses := answer i :: past } := by
  rw [step_of_decode_ok rfl (decode_encode hwf)]
  exact hanswer i _

theorem run_succ_of_step {M : Host.Core} {s t : M.State} (k : Nat) (hstep : M.step s = .next t) :
    M.run (k + 1) s = M.run k t := by
  rw [Host.Core.run, hstep]

/-- As many steps as operations issued answer them in order, the latest response on top. -/
theorem run_map_encode {answer : Instr → Response} (hanswer : ∀ i s, exec i s = .next (deliver (answer i) s))
    (is : List Instr) (rest : List Request) (past : List Response) (hwf : ∀ i ∈ is, WellFormed i = true) :
    core.run is.length { requests := is.map encode ++ rest, responses := past } =
      .next { requests := rest, responses := (is.map answer).reverse ++ past } := by
  induction is generalizing past with
  | nil => rfl
  | cons i is ih =>
    have hstep := step_encode hanswer (hwf i (by simp)) (is.map encode ++ rest) past
    calc core.run (is.length + 1) { requests := encode i :: (is.map encode ++ rest), responses := past }
      _ = core.run is.length { requests := is.map encode ++ rest, responses := answer i :: past } :=
        run_succ_of_step (M := core) _ hstep
      _ = .next { requests := rest, responses := (is.map answer).reverse ++ answer i :: past } :=
        ih _ fun j hj => hwf j (by simp [hj])
      _ = .next { requests := rest, responses := ((i :: is).map answer).reverse ++ past } := by simp

/-- Settles O13: every operation has one response for all states; the run delivers them one by one. -/
theorem runAnswersEachRequestAsIfAlone : Obligations.RunAnswersEachRequestAsIfAlone := by
  choose answer hanswer using exec_eq_deliver
  exact ⟨answer, hanswer, run_map_encode hanswer⟩

end Sys2Proof.Machine

/-! PROOFS. What each operation answers (R202), and that every answer is within the rules of its results (R111, R134,
R139, R160 to R168, R172). -/

namespace Sys2Proof.Machine

theorem exec_fcParse_cases (text : List Byte) (s : State) :
    (∃ f, parse Config.params text = .ok f ∧ exec (.fcParse text) s = .next (deliver (.ok (.fcParse f)) s)) ∨
      exec (.fcParse text) s = .next (deliver (.error .badLength) s) ∨
      exec (.fcParse text) s = .next (deliver (.error .badCharset) s) := by
  rcases parse_cases Config.params text with ⟨-, hparse⟩ | ⟨-, -, hparse⟩ | ⟨-, f, hparse⟩
  · exact .inr (.inl ((exec_fcParse_error_iff text _ s).mpr hparse))
  · exact .inr (.inr ((exec_fcParse_error_iff text _ s).mpr hparse))
  · exact .inl ⟨f, hparse, (exec_fcParse_ok_iff text f s).mpr hparse⟩

theorem exec_crRead_cases (buf : List Byte) (s : State) :
    (89 ≤ buf.length ∧ exec (.crRead buf) s = .next (deliver (.ok (.crRead (recordOf buf))) s)) ∨
      exec (.crRead buf) s = .next (deliver (.error .shortBuffer) s) := by
  rcases Nat.lt_or_ge buf.length 89 with hshort | hlen
  · exact .inr (exec_crRead_of_short hshort s)
  · exact .inl ⟨hlen, exec_crRead_of_le hlen s⟩

theorem exec_crWrite_cases (template : List Byte) (ov : Overrides) (s : State) :
    (89 ≤ template.length ∧ exec (.crWrite template ov) s =
      .next (deliver (.ok (.crWrite (newBuffer Config.params template ov))) s)) ∨
      exec (.crWrite template ov) s = .next (deliver (.error .shortBuffer) s) := by
  rcases Nat.lt_or_ge template.length 89 with hshort | hlen
  · exact .inr (exec_crWrite_of_short hshort ov s)
  · exact .inl ⟨hlen, exec_crWrite_of_le hlen ov s⟩

/-- Settles O12: three operations have one outcome, FC.PARSE the three of `parse`, and the buffer's length decides the
outcome of the other two. -/
theorem eachOperationAnswersItsOwnStatusCodes : Obligations.EachOperationAnswersItsOwnStatusCodes := by
  refine ⟨fun block off wid s => ⟨_, exec_bfExtract block off wid s⟩,
    fun off wid value s => ⟨_, exec_bfPack off wid value s⟩,
    fun morph app s => ⟨_, exec_fcGenerate morph app s⟩,
    fun text s => ?parse, fun buf s => ?read, fun template ov s => ?write⟩
  case parse =>
    rcases exec_fcParse_cases text s with ⟨f, -, hexec⟩ | hexec | hexec
    · exact ⟨_, hexec, .inl ⟨f, rfl⟩⟩
    · exact ⟨_, hexec, .inr (.inl rfl)⟩
    · exact ⟨_, hexec, .inr (.inr rfl)⟩
  case read =>
    rcases exec_crRead_cases buf s with ⟨-, hexec⟩ | hexec
    · exact ⟨_, hexec, .inl ⟨_, rfl⟩⟩
    · exact ⟨_, hexec, .inr rfl⟩
  case write =>
    rcases exec_crWrite_cases template ov s with ⟨-, hexec⟩ | hexec
    · exact ⟨_, hexec, .inl ⟨_, rfl⟩⟩
    · exact ⟨_, hexec, .inr rfl⟩

/-- Settles O50: each write answers its own new buffer in every state, the one after the other write too. -/
theorem sequentialWritesAreIndependent : Obligations.SequentialWritesAreIndependent := by
  intro template ov ov' s hlen
  refine ⟨_, _, exec_crWrite_of_le hlen ov s, exec_crWrite_of_le hlen ov' s, fun t ht => ?_⟩
  have hstate : deliver (.ok (.crWrite (newBuffer Config.params template ov))) s = t :=
    Host.Outcome.next.inj ((exec_crWrite_of_le hlen ov s).symm.trans ht)
  subst hstate
  exact exec_crWrite_of_le hlen ov' _

/-! The results of each operation are sound. -/

/-- A contribution is below 2^126: the offset is at most 63 and the value below 2^63 (R111). -/
theorem sound_bfPack (off : BitVec 6) (wid : BitVec 7) (value : Signed64) :
    (Response.ok (.bfPack (BitVec.ofNat 128 (pack off.toNat wid.toNat (signedValue value))))).sound = true := by
  have hpow : 2 ^ (off.toNat + min wid.toNat 63) ≤ 2 ^ 126 := Nat.pow_le_pow_right Nat.two_pos (by omega)
  refine decide_eq_true ?_
  rw [toNat_ofNat_pack]
  exact (pack_port_lt off.toNat wid.toNat value).trans_le hpow

/-- Morph 42 is one bit of B2, so 0 or 1 (R134). -/
theorem fieldsOf_morph_42_le (b0 b1 b2 b3 : Nat) : (fieldsOf b0 b1 b2 b3).morph[42] ≤ 1#3 := by
  have hfield : (fieldsOf b0 b1 b2 b3).morph[42].toNat = bits b2 63 63 := fieldsOf_morph_42 b0 b1 b2 b3
  rw [BitVec.le_def, hfield]
  exact Nat.le_of_lt_succ (bits_lt b2 63 63)

theorem sound_fcParse {text : List Byte} {f : FaceCode} (hparse : parse Config.params text = .ok f) :
    (Response.ok (.fcParse f)).sound = true := by
  rw [parse_of_digits (sixtyFourDigits_of_parse_eq_ok hparse)] at hparse
  cases hparse
  exact decide_eq_true (fieldsOf_morph_42_le _ _ _ _)

/-- The canonical form as a sum of its parts (R74, R84, R139). -/
theorem canonicalText_mark_append {ds : List Byte} (hlen : ds.length = 48) (hds : ∀ c ∈ ds, c ∈ hexDigits) :
    canonicalText ([char0, charx] ++ (ds ++ List.replicate 16 char0)) = true := by
  have hdigits : ∀ c ∈ ds ++ List.replicate 16 char0, isLowerHex c = true := by
    refine List.forall_mem_append.mpr ⟨fun c hc => List.contains_iff_mem.mpr (hds c hc), fun c hc => ?_⟩
    rw [List.eq_of_mem_replicate hc]
    rfl
  have hlast : (ds ++ List.replicate 16 char0).drop 48 = List.replicate 16 char0 := List.drop_left' hlen
  simp only [canonicalText, Bool.and_eq_true, beq_iff_eq, List.all_eq_true]
  exact ⟨⟨⟨by simp [hlen], rfl⟩, hdigits⟩, hlast⟩

/-- A generated text is canonical: three blocks of lowercase digits and a block of zeros (R139). -/
theorem sound_fcGenerate (morph : Vector (Port Signed64) 43) (app : AppAttrs (Port Signed64)) :
    (Response.ok (.fcGenerate ([char0, charx] ++ generatedDigits morph app))).sound = true := by
  have hdigits : generatedDigits morph app = hex16 (orFields (b0Fields app)) ++ hex16 (orFields (b1Fields morph)) ++
      hex16 (orFields (b2Fields morph)) ++ List.replicate 16 char0 := by
    rw [generatedDigits, blocksText, hex16_zero]
  rw [hdigits]
  refine canonicalText_mark_append (by simp) fun c hc => ?_
  rw [List.mem_append, List.mem_append] at hc
  rcases hc with (hc | hc) | hc <;> exact mem_hexDigits_of_mem_hex16 hc

theorem length_recordOf_name (buf : List Byte) : (recordOf buf).name.length = (recordOf buf).nlen :=
  (length_slice _ _ _).trans (Nat.min_eq_left (fittingName_le _ _))

/-- Two byte sequences of one length with the same bytes are equal. -/
theorem eq_of_byteAt_eq {buf buf' : List Byte} (hlen : buf.length = buf'.length)
    (h : ∀ j < buf.length, byteAt buf j = byteAt buf' j) : buf = buf' := by
  refine List.ext_getElem hlen fun j hj hj' => ?_
  rw [← byteAt_eq_getElem hj, ← byteAt_eq_getElem hj', h j hj]

/-- The appearance ports are the 11 bytes from 21 on (R167). -/
theorem recordOf_appearance_toList {buf : List Byte} (hlen : 32 ≤ buf.length) :
    (recordOf buf).appearance.toList = slice buf 21 11 := by
  have hslice : (slice buf 21 11).length = 11 := by rw [length_slice]; omega
  refine eq_of_byteAt_eq (by rw [hslice, Vector.length_toList]) fun j hj => ?_
  rw [Vector.length_toList] at hj
  exact (getD_tabulate _ _ hj).trans (byteAt_slice buf 21 hj).symm

/-- Every field of a read record is the one its raw bytes give (R160 to R168). -/
theorem sound_crRead {buf : List Byte} (hlen : 89 ≤ buf.length) :
    (Response.ok (.crRead (recordOf buf))).sound = true := by
  have hcolor : (recordOf buf).hairColor.toNat = bits (memRead buf 16 2) 5 0 :=
    toNat_ofNat_field _ 0 (by decide) le_rfl
  have hage : (recordOf buf).age.toNat = bits (memRead buf 16 2) 11 6 := toNat_ofNat_field _ 6 (by decide) le_rfl
  simp only [Response.sound, Results.sound, Bool.and_eq_true, decide_eq_true_eq, beq_iff_eq]
  exact ⟨⟨⟨⟨⟨⟨⟨⟨⟨⟨⟨hlen, rfl⟩, rfl⟩, rfl⟩, length_recordOf_name buf⟩, rfl⟩, recordOf_banner_toNat buf⟩, rfl⟩, rfl⟩,
    hcolor⟩, hage⟩, recordOf_appearance_toList (by omega)⟩

/-- A new buffer is as long as its template (R172, R179). -/
theorem sound_crWrite (p : Params) {template : List Byte} (hlen : 89 ≤ template.length) (ov : Overrides) :
    (Response.ok (.crWrite (newBuffer p template ov))).sound = true :=
  decide_eq_true (hlen.trans_eq (length_newBuffer p template ov).symm)

/-- Every operation delivers a sound response. -/
theorem exec_delivers_sound (i : Instr) (s : State) :
    ∃ r : Response, r.sound = true ∧ exec i s = .next (deliver r s) := by
  cases i with
  | bfExtract block off wid => exact ⟨_, rfl, exec_bfExtract block off wid s⟩
  | bfPack off wid value => exact ⟨_, sound_bfPack off wid value, exec_bfPack off wid value s⟩
  | fcParse text =>
    rcases exec_fcParse_cases text s with ⟨f, hparse, hexec⟩ | hexec | hexec
    · exact ⟨_, sound_fcParse hparse, hexec⟩
    · exact ⟨_, rfl, hexec⟩
    · exact ⟨_, rfl, hexec⟩
  | fcGenerate morph app => exact ⟨_, sound_fcGenerate morph app, exec_fcGenerate morph app s⟩
  | crRead buf =>
    rcases exec_crRead_cases buf s with ⟨hlen, hexec⟩ | hexec
    · exact ⟨_, sound_crRead hlen, hexec⟩
    · exact ⟨_, rfl, hexec⟩
  | crWrite template ov =>
    rcases exec_crWrite_cases template ov s with ⟨hlen, hexec⟩ | hexec
    · exact ⟨_, sound_crWrite _ hlen ov, hexec⟩
    · exact ⟨_, rfl, hexec⟩

theorem sound_deliver {r : Response} {s : State} (hr : r.sound = true) (hs : s.Sound) : (deliver r s).Sound := by
  rw [State.Sound, deliver_responses, List.forall_mem_cons]
  exact ⟨hr, hs⟩

/-- Settles O16: an idle step delivers nothing, a refused one has no next state, and an operation adds a sound
response. -/
theorem stepKeepsResponsesSound : Obligations.StepKeepsResponsesSound := by
  intro s t hsound hstep
  rcases step_cases s with ⟨-, hidle⟩ | ⟨q, rest, i, -, -, hexec⟩ | ⟨q, rest, e, -, -, hrefused⟩
  · cases hidle.symm.trans hstep
    exact hsound
  · obtain ⟨r, hr, hdeliver⟩ := exec_delivers_sound i { s with requests := rest }
    cases (hexec.trans hdeliver).symm.trans hstep
    exact sound_deliver hr hsound
  · cases hrefused.symm.trans hstep

/-- Settles O17: at reset there is no response. -/
theorem resetResponsesSound : Obligations.ResetResponsesSound := by
  intro r hr
  cases hr

end Sys2Proof.Machine

/-! PROOFS. The field laws of the BitField unit (R114 to R118), each from the bits of `extract`, `pack` and `insert`. -/

namespace Sys2Proof.Machine

/-- Settles O22: bit `k` of the field is bit `off + k` of the block, which is 0 from bit 64 on. -/
theorem extractDependsOnItsFieldAlone : Obligations.ExtractDependsOnItsFieldAlone := by
  refine ⟨extract_lt, fun b c off wid hagree => Nat.eq_of_testBit_eq fun k => ?_⟩
  rw [testBit_extract, testBit_extract, BitVec.testBit_toNat, BitVec.testBit_toNat]
  by_cases hfield : k < wid
  · by_cases hblock : off + k < 64
    · rw [hagree (off + k) (by omega) (by omega)]
    · rw [BitVec.getLsbD_of_ge _ _ (by omega), BitVec.getLsbD_of_ge _ _ (by omega)]
  · simp [hfield]

theorem orFields_singleton (f : FieldValue) : orFields [f] = pack f.off f.wid f.value := by
  rw [orFields_cons, orFields_nil, Nat.or_zero]

/-- Extracting a packed field gives the value that `pack` put into it. -/
theorem extract_pack (off wid : Nat) (v : Int) : extract (pack off wid v) off wid = nearest (2 ^ wid - 1) v := by
  have hfield := extract_orFields (List.pairwise_singleton _ ⟨off, wid, v⟩) (List.mem_singleton_self _)
  rwa [orFields_singleton, clamp_mask_eq_nearest] at hfield

theorem pack_lt_of_end_le {off wid n : Nat} (v : Int) (hend : off + wid ≤ n) : pack off wid v < 2 ^ n := by
  rw [← orFields_singleton ⟨off, wid, v⟩]
  exact orFields_lt (by simpa using hend)

theorem nearest_of_mem {hi : Nat} {v : Int} (hpos : 0 ≤ v) (hle : v ≤ hi) : (nearest hi v : Int) = v := by
  rw [nearest]
  omega

/-- Settles O23: the one field of a contribution holds the clamped value. -/
theorem extractOfPackIsTheClampedValue : Obligations.ExtractOfPackIsTheClampedValue := by
  refine fun off wid v hend => ⟨pack_lt_of_end_le v hend, extract_pack off wid v, fun hpos hlt => ?_⟩
  have hle : v ≤ (2 ^ wid - 1 : Nat) := by
    rw [← mask_eq, natCast_mask]
    omega
  rw [extract_pack, nearest_of_mem hpos hle]

/-- Settles O24: a bit outside `off .. off+wid-1` is none of the field's. -/
theorem packIsZeroOutsideItsField : Obligations.PackIsZeroOutsideItsField := by
  intro off wid v k houtside
  refine testBit_pack_of_not_covers (f := ⟨off, wid, v⟩) ?_
  rintro ⟨hlo, hhi⟩
  dsimp only at hlo hhi
  omega

/-- Settles O25: bit `k` of the OR is that of the one field which covers it, and 0 where none does. -/
theorem disjointFieldsComposeByOr : Obligations.DisjointFieldsComposeByOr := by
  intro fs hend hapart
  refine ⟨orFields_lt hend, fun f hf => ?_, fun k houtside => testBit_orFields_of_not_covers ?_⟩
  · rw [extract_orFields hapart hf, clamp_mask_eq_nearest]
  · rintro f hf ⟨hlo, hhi⟩
    have := houtside f hf
    omega

/-! Replacing one field (R118). -/

theorem testBit_insert_outside {width w off wid k : Nat} (v : Int) (hw : w < 2 ^ width)
    (houtside : k < off ∨ off + wid ≤ k) : (insert width w off wid v).testBit k = w.testBit k := by
  have hcovers : (decide (off ≤ k) && decide (k - off < wid)) = false := by
    rw [← Bool.decide_and, decide_eq_false_iff_not]
    omega
  rw [testBit_insert, packIsZeroOutsideItsField off wid v k houtside, hcovers]
  by_cases hk : k < width
  · simp [hk]
  · have hhigh : w.testBit k = false :=
      Nat.testBit_lt_two_pow (hw.trans_le (Nat.pow_le_pow_right Nat.two_pos (by omega)))
    simp [hhigh]

theorem testBit_insert_inside {width off wid k : Nat} (w : Nat) (v : Int) (hend : off + wid ≤ width)
    (hk : k < wid) : (insert width w off wid v).testBit (off + k) = (pack off wid v).testBit (off + k) := by
  have hwidth : off + k < width := by omega
  simp [testBit_insert, hwidth, hk]

theorem extract_insert {width off wid : Nat} (w : Nat) (v : Int) (hend : off + wid ≤ width) :
    extract (insert width w off wid v) off wid = nearest (2 ^ wid - 1) v := by
  rw [← extract_pack off]
  refine Nat.eq_of_testBit_eq fun k => ?_
  rw [testBit_extract, testBit_extract]
  by_cases hk : k < wid
  · rw [testBit_insert_inside w v hend hk]
  · simp [hk]

theorem insert_lt {width w off wid : Nat} (v : Int) (hend : off + wid ≤ width) (hw : w < 2 ^ width) :
    insert width w off wid v < 2 ^ width := by
  refine Nat.lt_pow_two_of_testBit _ fun k hk => ?_
  rw [testBit_insert_outside v hw (by omega)]
  exact Nat.testBit_lt_two_pow (hw.trans_le (Nat.pow_le_pow_right Nat.two_pos hk))

/-- Settles O26: inside the field the bits are those of the contribution, outside it those of the word. -/
theorem insertReplacesOneField : Obligations.InsertReplacesOneField :=
  fun _ w _ _ v hend hw => ⟨insert_lt v hend hw, extract_insert w v hend, fun _ => testBit_insert_outside v hw⟩

end Sys2Proof.Machine

/-! PROOFS. Blocks by their fields: a contribution depends on the clamped value alone (R112), and the OR of the fields
read from a block gives the block's own bits back. -/

namespace Sys2Proof.Machine

theorem orFields_append (fs gs : List FieldValue) : orFields (fs ++ gs) = orFields fs ||| orFields gs := by
  refine Nat.eq_of_testBit_eq fun k => ?_
  simp only [Nat.testBit_or, testBit_orFields, List.any_append]

theorem adjacentFields_succ (wid n : Nat) (value : Nat → Int) :
    adjacentFields wid (n + 1) value = adjacentFields wid n value ++ [⟨wid * n, wid, value n⟩] := by
  simp [adjacentFields, List.range_succ]

theorem orFields_adjacentFields_succ (wid n : Nat) (value : Nat → Int) :
    orFields (adjacentFields wid (n + 1) value) =
      orFields (adjacentFields wid n value) ||| pack (wid * n) wid (value n) := by
  rw [adjacentFields_succ, orFields_append, orFields_singleton]

theorem pack_eq_nearest (off wid : Nat) (v : Int) : pack off wid v = nearest (2 ^ wid - 1) v * 2 ^ off := by
  rw [pack_eq, clamp_mask_eq_nearest]

theorem pack_congr (off : Nat) {wid : Nat} {v v' : Int} (h : nearest (2 ^ wid - 1) v = nearest (2 ^ wid - 1) v') :
    pack off wid v = pack off wid v' := by
  rw [pack_eq_nearest, h, pack_eq_nearest]

theorem orFields_adjacentFields_congr {wid n : Nat} {value value' : Nat → Int}
    (h : ∀ i < n, nearest (2 ^ wid - 1) (value i) = nearest (2 ^ wid - 1) (value' i)) :
    orFields (adjacentFields wid n value) = orFields (adjacentFields wid n value') := by
  induction n with
  | zero => rfl
  | succ n ih =>
    rw [orFields_adjacentFields_succ, orFields_adjacentFields_succ, ih fun i hi => h i (by omega),
      pack_congr _ (h n (by omega))]

/-- Packing a field of `b` at its own place is one digit more of `b`. -/
theorem mod_or_pack_extract (b off wid : Nat) :
    b % 2 ^ off ||| pack off wid (extract b off wid) = b % 2 ^ (off + wid) := by
  have hfits : (extract b off wid : Int) < 2 ^ wid := by exact_mod_cast extract_lt b off wid
  have hpack : pack off wid (extract b off wid) = 2 ^ off * extract b off wid := by
    rw [Nat.mul_comm]
    exact_mod_cast pack_of_fits off (Int.natCast_nonneg _) hfits
  rw [hpack, Nat.or_comm, ← Nat.two_pow_add_eq_or_of_lt (Nat.mod_lt _ (Nat.two_pow_pos off)), Nat.pow_add, Nat.mod_mul,
    extract_eq, Nat.add_comm]

/-- The fields read from a block, side by side, are its low bits. -/
theorem orFields_adjacentFields_extract (b wid n : Nat) :
    orFields (adjacentFields wid n fun i => extract b (wid * i) wid) = b % 2 ^ (wid * n) := by
  induction n with
  | zero => simp [adjacentFields, orFields_nil, Nat.mod_one]
  | succ n ih => rw [orFields_adjacentFields_succ, ih, mod_or_pack_extract, Nat.mul_succ]

end Sys2Proof.Machine

/-! PROOFS. The digits of a block (R79, R80): lowercase digits are determined by the number they write, so a block
rendered again is its digits in lower case. -/

namespace Sys2Proof.Machine

theorem hexvalOrZero_lower (c : Byte) : hexvalOrZero (lower c) = hexvalOrZero c := by
  rw [hexvalOrZero, hexval_lower, hexvalOrZero]

theorem digitsValue_map_lower (ds : List Byte) : digitsValue (ds.map lower) = digitsValue ds := by
  induction ds with
  | nil => rfl
  | cons c ds ih => rw [List.map_cons, digitsValue_cons, digitsValue_cons, ih, hexvalOrZero_lower, List.length_map]

theorem lower_mem_hexDigits {c : Byte} (hc : hexDigitByte c = true) : lower c ∈ hexDigits := by
  have hall : ∀ c : Byte, (!hexDigitByte c || isLowerHex (lower c)) = true := by decide
  have hlower : isLowerHex (lower c) = true := by simpa [hc] using hall c
  exact List.contains_iff_mem.mp hlower

theorem hexDigitByte_of_mem_hexDigits {c : Byte} (hc : c ∈ hexDigits) : hexDigitByte c = true := by
  have hall : ∀ c ∈ hexDigits, hexDigitByte c = true := by decide
  exact hall c hc

theorem hexdig_hexvalOrZero {c : Byte} (hc : c ∈ hexDigits) : hexdig (hexvalOrZero c) = c := by
  have hall : ∀ c ∈ hexDigits, hexdig (hexvalOrZero c) = c := by decide
  exact hall c hc

theorem hexvalOrZero_inj {c c' : Byte} (hc : c ∈ hexDigits) (hc' : c' ∈ hexDigits)
    (h : hexvalOrZero c = hexvalOrZero c') : c = c' := by
  rw [← hexdig_hexvalOrZero hc, h, hexdig_hexvalOrZero hc']

/-- Lowercase numerals of one length that write the same number are equal. -/
theorem digitsValue_inj {ds ds' : List Byte} (hds : ∀ c ∈ ds, c ∈ hexDigits) (hds' : ∀ c ∈ ds', c ∈ hexDigits)
    (hlen : ds.length = ds'.length) (hvalue : digitsValue ds = digitsValue ds') : ds = ds' := by
  induction ds generalizing ds' with
  | nil => exact (List.length_eq_zero_iff.mp hlen.symm).symm
  | cons c ds ih =>
    cases ds' with
    | nil => cases hlen
    | cons c' ds' =>
      rw [List.forall_mem_cons] at hds hds'
      have hlen' : ds.length = ds'.length := Nat.succ.inj hlen
      rw [digitsValue_cons, digitsValue_cons, hlen'] at hvalue
      have hlt : digitsValue ds < 16 ^ ds'.length := (digitsValue_lt ds).trans_eq (by rw [hlen'])
      have htail : digitsValue ds = digitsValue ds' := by
        rw [← Nat.mul_add_mod_of_lt (a := hexvalOrZero c) hlt, hvalue, Nat.mul_add_mod_of_lt (digitsValue_lt ds')]
      rw [htail, Nat.add_right_cancel_iff] at hvalue
      have hhead : hexvalOrZero c = hexvalOrZero c' := Nat.eq_of_mul_eq_mul_right (Nat.pow_pos (by decide)) hvalue
      rw [hexvalOrZero_inj hds.1 hds'.1 hhead, ih hds.2 hds'.2 hlen' htail]

/-- A block's digits rendered again are the same digits in lower case. -/
theorem hex16_digitsValue {ds : List Byte} (hlen : ds.length = 16) (hds : ∀ c ∈ ds, hexDigitByte c = true) :
    hex16 (digitsValue ds) = ds.map lower := by
  have hlower : ∀ c ∈ ds.map lower, c ∈ hexDigits :=
    List.forall_mem_map.mpr fun c hc => lower_mem_hexDigits (hds c hc)
  have hlt : digitsValue ds < 2 ^ 64 := (digitsValue_lt ds).trans_eq (by rw [hlen]; rfl)
  refine digitsValue_inj (fun _ => mem_hexDigits_of_mem_hex16) hlower (by simp [hlen]) ?_
  rw [digitsValue_hex16 hlt, digitsValue_map_lower]

/-- The four blocks of 64 digits, rendered again. -/
theorem blocksText_blockValue {ds : List Byte} (hds : sixtyFourDigits ds) :
    blocksText (blockValue ds 0) (blockValue ds 1) (blockValue ds 2) (blockValue ds 3) = ds.map lower := by
  obtain ⟨hlen, hall⟩ := hds
  have hblock {k : Nat} (hk : k < 4) : hex16 (blockValue ds k) = (slice ds (16 * k) 16).map lower :=
    hex16_digitsValue ((length_slice ds (16 * k) 16).trans (by omega)) fun c hc =>
      hall c (List.mem_of_mem_drop (List.mem_of_mem_take hc))
  have hsplit : slice ds 0 16 ++ slice ds 16 16 ++ slice ds 32 16 ++ slice ds 48 16 = ds := by
    simp only [slice, List.drop_zero, ← List.take_add]
    exact List.take_of_length_le hlen.le
  rw [blocksText, hblock (by decide), hblock (by decide), hblock (by decide), hblock (by decide), ← List.map_append,
    ← List.map_append, ← List.map_append, hsplit]

end Sys2Proof.Machine

/-! PROOFS. The round trips of the Face Code unit (R141 to R146). -/

namespace Sys2Proof.Machine

/-- Settles O39: removing the mark leaves the digits, and `parse` answers the same for them in lower case. -/
theorem fcParseIgnoresMarkAndCase : Obligations.FcParseIgnoresMarkAndCase := by
  intro mark mark' ds ds' s hmark hmark' hds hds' hlower
  have hunmarked {mark ds : List Byte} (hmark : mark ∈ marks) (hds : sixtyFourDigits ds) :
      parse Config.params (mark ++ ds) = parse Config.params ds :=
    (parse_mark_append hmark hds).trans (parse_mark_append (mark := []) (by decide) hds).symm
  rw [exec_fcParse, exec_fcParse, hunmarked hmark hds, hunmarked hmark' hds', ← parse_map_lower ds, hlower,
    parse_map_lower]

/-- Settles O34: each block is the OR of contributions, which see the clamped inputs only. -/
theorem fcGenerateSeesClampedInputsOnly : Obligations.FcGenerateSeesClampedInputsOnly := by
  intro m m' a a' s hmorph h42 happ
  have hb0 : orFields (b0Fields a) = orFields (b0Fields a') := by
    rw [b0Fields_eq, b0Fields_eq]
    exact orFields_adjacentFields_congr (wid := 6) happ
  have hb1 : orFields (b1Fields m) = orFields (b1Fields m') := by
    rw [b1Fields_eq, b1Fields_eq]
    exact orFields_adjacentFields_congr (wid := 3) fun i hi => hmorph i (by omega)
  have hb2 : orFields (b2Fields m) = orFields (b2Fields m') := by
    rw [b2Fields_eq, b2Fields_eq, orFields_append, orFields_append, orFields_singleton, orFields_singleton]
    exact congrArg₂ (· ||| ·) (orFields_adjacentFields_congr (wid := 3) fun i hi => hmorph (21 + i) (by omega))
      (pack_congr 63 (wid := 1) h42)
  rw [exec_fcGenerate, exec_fcGenerate, generatedDigits, generatedDigits, hb0, hb1, hb2]

theorem mark_mem_marks : [char0, charx] ∈ marks := by decide

theorem sixtyFourDigits_blocksText (b0 b1 b2 b3 : Nat) : sixtyFourDigits (blocksText b0 b1 b2 b3) :=
  ⟨length_blocksText b0 b1 b2 b3, fun _ hc => hexDigitByte_of_mem_hexDigits (mem_hexDigits_of_mem_blocksText hc)⟩

/-- What FC.PARSE gives for four blocks rendered as digits. -/
theorem parse_blocksText {mark : List Byte} (hmark : mark ∈ marks) {b0 b1 b2 b3 : Nat} (h0 : b0 < 2 ^ 64)
    (h1 : b1 < 2 ^ 64) (h2 : b2 < 2 ^ 64) (h3 : b3 < 2 ^ 64) :
    parse Config.params (mark ++ blocksText b0 b1 b2 b3) = .ok (fieldsOf b0 b1 b2 b3) := by
  obtain ⟨hb0, hb1, hb2, hb3⟩ := blockValue_blocksText h0 h1 h2 h3
  rw [parse_mark_append hmark (sixtyFourDigits_blocksText b0 b1 b2 b3), hb0, hb1, hb2, hb3]

/-- The fields that FC.PARSE gives for a generated text. -/
def generatedFields (morph : Vector (Port Signed64) 43) (app : AppAttrs (Port Signed64)) : FaceCode :=
  fieldsOf (orFields (b0Fields app)) (orFields (b1Fields morph)) (orFields (b2Fields morph)) 0

theorem parse_generate (morph : Vector (Port Signed64) 43) (app : AppAttrs (Port Signed64)) :
    parse Config.params ([char0, charx] ++ generatedDigits morph app) = .ok (generatedFields morph app) :=
  parse_blocksText mark_mem_marks ((b0_lt app).trans (by decide)) ((b1_lt morph).trans (by decide)) (b2_lt morph)
    (by decide)

theorem generatedFields_morph (morph : Vector (Port Signed64) 43) (app : AppAttrs (Port Signed64)) {i : Nat}
    (hi : i < 42) : ((generatedFields morph app).morph.toList.getD i 0).toNat =
      nearest 7 (presented (morph.toList.getD i noValue)) := by
  rcases Nat.lt_or_ge i 21 with hlow | hhigh
  · exact (fieldsOf_morph_b1 _ _ _ _ hlow).trans (bits_b1 morph hlow)
  · obtain ⟨j, rfl⟩ := Nat.exists_eq_add_of_le hhigh
    have hj : j < 21 := by omega
    exact (fieldsOf_morph_b2 _ _ _ _ hj).trans (bits_b2 morph hj)

theorem generatedFields_morph_42 (morph : Vector (Port Signed64) 43) (app : AppAttrs (Port Signed64)) :
    ((generatedFields morph app).morph.toList.getD 42 0).toNat =
      nearest 1 (presented (morph.toList.getD 42 noValue)) :=
  (fieldsOf_morph_42 _ _ _ _).trans (bits_b2_63 morph)

theorem generatedFields_app (morph : Vector (Port Signed64) 43) (app : AppAttrs (Port Signed64)) {k : Nat}
    (hk : k < 7) : (attrAt (generatedFields morph app).app k).toNat = nearest 63 (presented (attrAt app k)) :=
  (fieldsOf_app _ _ _ _ hk).trans (bits_b0 app hk)

/-- Settles O35: each field of a generated text holds its clamped input. -/
theorem parseOfGenerateGivesClampedInputs : Obligations.ParseOfGenerateGivesClampedInputs :=
  fun morph app s t => ⟨_, _, exec_fcGenerate morph app s, (exec_fcParse_ok_iff _ _ t).mpr (parse_generate morph app),
    fun _ => generatedFields_morph morph app, generatedFields_morph_42 morph app,
    fun _ => generatedFields_app morph app, rfl⟩

/-- A clamped number is non-zero exactly where the number is positive. -/
theorem nearest_ne_zero_iff {hi : Nat} (hpos : 0 < hi) (v : Int) : nearest hi v ≠ 0 ↔ 0 < v := by
  rw [nearest]
  omega

theorem generatedFields_morph_ne_zero_iff (morph : Vector (Port Signed64) 43) (app : AppAttrs (Port Signed64))
    {j : Nat} (hj : j < 43) : (generatedFields morph app).morph.toList.getD j 0 ≠ 0 ↔
      0 < presented (morph.toList.getD j noValue) := by
  rw [ne_eq, ← BitVec.toNat_inj]
  rcases Nat.lt_succ_iff_lt_or_eq.mp hj with hj | rfl
  · rw [generatedFields_morph morph app hj]
    exact nearest_ne_zero_iff (by decide) _
  · rw [generatedFields_morph_42]
    exact nearest_ne_zero_iff (by decide) _

theorem generatedFields_app_ne_zero_iff (morph : Vector (Port Signed64) 43) (app : AppAttrs (Port Signed64))
    {k : Nat} (hk : k < 7) : attrAt (generatedFields morph app).app k ≠ 0 ↔ 0 < presented (attrAt app k) := by
  rw [ne_eq, ← BitVec.toNat_inj, generatedFields_app morph app hk]
  exact nearest_ne_zero_iff (by decide) _

/-- Settles O38: a field decodes to a non-zero number exactly where its input is positive. -/
theorem oneInputSetsOneField : Obligations.OneInputSetsOneField := by
  intro morph app s t i _ hmorph happ
  exact ⟨_, _, exec_fcGenerate morph app s, (exec_fcParse_ok_iff _ _ t).mpr (parse_generate morph app),
    fun j hj => (generatedFields_morph_ne_zero_iff morph app hj).trans (hmorph j hj).1,
    fun k hk => (generatedFields_app_ne_zero_iff morph app hk).trans (happ k hk).1⟩

/-! What FC.GENERATE makes of the fields FC.PARSE delivers. -/

theorem presented_asInput {w : Nat} (hw : w < 64) (v : BitVec w) : presented (asInput v) = v.toNat := by
  have hlt : v.toNat < 2 ^ 63 := v.isLt.trans_le (Nat.pow_le_pow_right Nat.two_pos (by omega))
  rw [presented, asInput, if_pos rfl, BitVec.toInt_eq_toNat_cond, BitVec.toNat_setWidth_of_le hw.le, if_pos (by omega)]

theorem presented_morphInputs (f : FaceCode) {i : Nat} (hi : i < 43) :
    presented ((morphInputs f).toList.getD i noValue) = (f.morph.toList.getD i 0).toNat := by
  rw [morphInputs, getD_tabulate _ _ hi, presented_asInput (by decide)]

theorem presented_attrInputs (f : FaceCode) {k : Nat} (hk : k < 7) :
    presented (attrAt (attrInputs f) k) = (attrAt f.app k).toNat := by
  rw [attrInputs, attrAt_attrsOf _ hk, presented_asInput (by decide)]

theorem b0_attrInputs (b0 b1 b2 b3 : Nat) :
    orFields (b0Fields (attrInputs (fieldsOf b0 b1 b2 b3))) = b0 % 2 ^ 42 := by
  rw [b0Fields_eq, ← orFields_adjacentFields_extract b0 6 7]
  refine congrArg orFields (adjacentFields_congr fun k hk => ?_)
  rw [presented_attrInputs _ hk, fieldsOf_app _ _ _ _ hk, extract_eq_bits _ _ (by decide)]
  rfl

theorem b1_morphInputs (b0 b1 b2 b3 : Nat) :
    orFields (b1Fields (morphInputs (fieldsOf b0 b1 b2 b3))) = b1 % 2 ^ 63 := by
  rw [b1Fields_eq, ← orFields_adjacentFields_extract b1 3 21]
  refine congrArg orFields (adjacentFields_congr fun i hi => ?_)
  rw [presented_morphInputs _ (by omega), fieldsOf_morph_b1 _ _ _ _ hi, extract_eq_bits _ _ (by decide)]
  rfl

theorem b2_morphInputs (b0 b1 b2 b3 : Nat) :
    orFields (b2Fields (morphInputs (fieldsOf b0 b1 b2 b3))) = b2 % 2 ^ 64 := by
  have hlow : orFields (adjacentFields 3 21 fun i =>
      presented ((morphInputs (fieldsOf b0 b1 b2 b3)).toList.getD (21 + i) noValue)) = b2 % 2 ^ 63 := by
    rw [← orFields_adjacentFields_extract b2 3 21]
    refine congrArg orFields (adjacentFields_congr fun i hi => ?_)
    rw [presented_morphInputs _ (by omega), fieldsOf_morph_b2 _ _ _ _ hi, extract_eq_bits _ _ (by decide)]
    rfl
  have hhigh : presented ((morphInputs (fieldsOf b0 b1 b2 b3)).toList.getD 42 noValue) = extract b2 63 1 := by
    rw [presented_morphInputs _ (by decide), fieldsOf_morph_42, extract_eq_bits _ _ (by decide)]
  rw [b2Fields_eq, orFields_append, orFields_singleton, hlow, hhigh]
  exact mod_or_pack_extract b2 63 1

/-- The digits generated from parsed blocks: their bits in no field, and B3, are gone. -/
theorem generatedDigits_of_fields (b0 b1 b2 b3 : Nat) :
    generatedDigits (morphInputs (fieldsOf b0 b1 b2 b3)) (attrInputs (fieldsOf b0 b1 b2 b3)) =
      blocksText (b0 % 2 ^ 42) (b1 % 2 ^ 63) (b2 % 2 ^ 64) 0 := by
  rw [generatedDigits, b0_attrInputs, b1_morphInputs, b2_morphInputs]

/-- Bits from `lo` to the top of a number that are 0 leave its low bits. -/
theorem mod_of_bits_eq_zero {v hi lo : Nat} (hv : v < 2 ^ (hi + 1)) (hle : lo ≤ hi) (h : bits v hi lo = 0) :
    v % 2 ^ lo = v := by
  have hdiv : v / 2 ^ lo < 2 ^ (hi - lo + 1) := by
    rw [Nat.div_lt_iff_lt_mul (Nat.two_pow_pos _), ← Nat.pow_add]
    exact hv.trans_eq (by congr 1; omega)
  rw [bits, Nat.mod_eq_of_lt hdiv] at h
  exact Nat.mod_eq_of_lt (Nat.lt_of_div_eq_zero (Nat.two_pow_pos lo) h)

/-- Settles O36: with no bit set outside the fields the blocks come back whole, and their digits in lower case. -/
theorem generateOfParseGivesCanonicalText : Obligations.GenerateOfParseGivesCanonicalText := by
  intro mark ds s t hmark hds hb3 hb0 hb1
  refine ⟨_, (exec_fcParse_ok_iff _ _ s).mpr (parse_mark_append hmark hds), ?_⟩
  have htext : blocksText (blockValue ds 0) (blockValue ds 1) (blockValue ds 2) 0 = ds.map lower := by
    rw [← blocksText_blockValue hds, hb3]
  rw [exec_fcGenerate, generatedDigits_of_fields, mod_of_bits_eq_zero (blockValue_lt ds 0) (by decide) hb0,
    mod_of_bits_eq_zero (blockValue_lt ds 1) (by decide) hb1, Nat.mod_eq_of_lt (blockValue_lt ds 2), htext]
  rfl

/-- Settles O37: every set bit of the text is in no field, so its fields are 0 and generate zeros. -/
theorem unusedBitsDoNotSurvive : Obligations.UnusedBitsDoNotSurvive := by
  intro s text
  have hparse : parse Config.params text = .ok (fieldsOf 0xfffffc0000000000 0x8000000000000000 0 0x123456789abcdef0) :=
    parse_blocksText (mark := []) (by decide) (by decide) (by decide) (by decide) (by decide)
  have hzeros : blocksText 0 0 0 0 = List.replicate 64 char0 := by decide
  refine ⟨_, (exec_fcParse_ok_iff _ _ s).mpr hparse, rfl, by decide, by decide, ?_⟩
  rw [exec_fcGenerate, generatedDigits_of_fields, ← hzeros]
  rfl

end Sys2Proof.Machine

/-! PROOFS. The fields of several bytes after the fixed overrides: the packed word at 16, whose two fields are replaced
one after the other (R177), and the banner (R176). -/

namespace Sys2Proof.Machine

theorem memRead_congr {buf buf' : List Byte} {off n : Nat}
    (h : ∀ k < n, byteAt buf (off + k) = byteAt buf' (off + k)) : memRead buf off n = memRead buf' off n := by
  induction n with
  | zero => rfl
  | succ n ih => rw [memRead_succ, memRead_succ, ih fun k hk => h k (by omega), h n (by omega)]

/-- Replacing one field leaves the fields on either side of it. -/
theorem extract_insert_apart {width w off wid off' wid' : Nat} (v : Int) (hw : w < 2 ^ width)
    (hapart : off' + wid' ≤ off ∨ off + wid ≤ off') :
    extract (insert width w off wid v) off' wid' = extract w off' wid' := by
  refine Nat.eq_of_testBit_eq fun k => ?_
  rw [testBit_extract, testBit_extract]
  by_cases hk : k < wid'
  · rw [testBit_insert_outside v hw (by omega)]
  · simp [hk]

theorem memRead_writePackedField {off wid : Nat} (v : Signed64) {out : List Byte} (hlen : 18 ≤ out.length)
    (hend : off + wid ≤ 16) :
    memRead (writePackedField off wid v out) 16 2 = insert 16 (memRead out 16 2) off wid (signedValue v) := by
  rw [writePackedField, memRead_memWrite _ hlen le_rfl, Nat.mod_eq_of_lt (insert_lt _ hend (memRead_lt out 16 2))]

/-- The field of a packed override, present or absent. -/
theorem extract_packedOverride (port : Port Signed64) {off wid : Nat} {out : List Byte} (hlen : 18 ≤ out.length)
    (hend : off + wid ≤ 16) :
    extract (memRead (applyIfPresent port (writePackedField off wid) out) 16 2) off wid =
      stored port (2 ^ wid - 1) (extract (memRead out 16 2) off wid) := by
  cases hp : port.present with
  | false => rw [applyIfPresent_absent hp, stored, hp, if_neg Bool.false_ne_true]
  | true =>
    rw [applyIfPresent_present hp, memRead_writePackedField _ hlen hend, extract_insert _ _ hend,
      signedValue_eq_toInt, stored, hp, if_pos rfl]

theorem extract_packedOverride_apart (port : Port Signed64) {off wid off' wid' : Nat} {out : List Byte}
    (hlen : 18 ≤ out.length) (hend : off + wid ≤ 16) (hapart : off' + wid' ≤ off ∨ off + wid ≤ off') :
    extract (memRead (applyIfPresent port (writePackedField off wid) out) 16 2) off' wid' =
      extract (memRead out 16 2) off' wid' := by
  refine applyIfPresent_observe (fun x => extract (memRead x 16 2) off' wid') fun _ => ?_
  rw [memRead_writePackedField _ hlen hend, extract_insert_apart _ (memRead_lt out 16 2) hapart]

theorem packedWord_byteOverride {off : Nat} (port : Port Signed64) (hi : BitVec 8) (out : List Byte) (h : off < 16) :
    memRead (applyIfPresent port (writeByteField off hi) out) 16 2 = memRead out 16 2 :=
  memRead_congr fun _ _ => byteAt_byteOverride_outside _ _ _ (by omega)

theorem packedWord_bannerOverride (port : Port Signed64) (hi : BitVec 32) (out : List Byte) :
    memRead (applyIfPresent port (writeBanner hi) out) 16 2 = memRead out 16 2 :=
  memRead_congr fun _ _ => byteAt_bannerOverride_outside _ _ _ (by omega)

theorem packedWord_appearanceOverride (port : Port (Vector Byte 11)) (out : List Byte) :
    memRead (applyIfPresent port writeAppearance out) 16 2 = memRead out 16 2 :=
  memRead_congr fun _ _ => byteAt_appearanceOverride_outside _ _ (by omega)

theorem writeFixed_hairColor (p : Params) (ov : Overrides) {out : List Byte} (h : 18 ≤ out.length) :
    extract (memRead (writeFixed p ov out) 16 2) 0 6 = stored ov.hairColor 63 (extract (memRead out 16 2) 0 6) := by
  rw [writeFixed, packedWord_appearanceOverride,
    extract_packedOverride_apart _ (by simpa [length_applyIfPresent]) (by decide) (by decide),
    extract_packedOverride _ (by simpa [length_applyIfPresent]) (by decide), packedWord_byteOverride _ _ _ (by decide),
    packedWord_byteOverride _ _ _ (by decide), packedWord_bannerOverride, packedWord_byteOverride _ _ _ (by decide)]
  rfl

theorem writeFixed_age (p : Params) (ov : Overrides) {out : List Byte} (h : 18 ≤ out.length) :
    extract (memRead (writeFixed p ov out) 16 2) 6 6 = stored ov.age 63 (extract (memRead out 16 2) 6 6) := by
  rw [writeFixed, packedWord_appearanceOverride,
    extract_packedOverride _ (by simpa [length_applyIfPresent]) (by decide),
    extract_packedOverride_apart _ (by simpa [length_applyIfPresent]) (by decide) (by decide),
    packedWord_byteOverride _ _ _ (by decide), packedWord_byteOverride _ _ _ (by decide), packedWord_bannerOverride,
    packedWord_byteOverride _ _ _ (by decide)]
  rfl

/-- The four bits above `age` belong to no override. -/
theorem writeFixed_packedRest (p : Params) (ov : Overrides) {out : List Byte} (h : 18 ≤ out.length) :
    extract (memRead (writeFixed p ov out) 16 2) 12 4 = extract (memRead out 16 2) 12 4 := by
  rw [writeFixed, packedWord_appearanceOverride,
    extract_packedOverride_apart _ (by simpa [length_applyIfPresent]) (by decide) (by decide),
    extract_packedOverride_apart _ (by simpa [length_applyIfPresent]) (by decide) (by decide),
    packedWord_byteOverride _ _ _ (by decide), packedWord_byteOverride _ _ _ (by decide), packedWord_bannerOverride,
    packedWord_byteOverride _ _ _ (by decide)]

/-- The banner as one number, present or absent. -/
theorem writeFixed_bannerWord (p : Params) (ov : Overrides) {out : List Byte} (h : 13 ≤ out.length) :
    memRead (writeFixed p ov out) 9 4 = stored ov.banner p.bannerMax.toNat (memRead out 9 4) := by
  have hbytes : memRead (writeFixed p ov out) 9 4 =
      memRead (applyIfPresent ov.banner (writeBanner p.bannerMax) out) 9 4 :=
    memRead_congr fun k hk => by rw [writeFixed_banner p ov h hk, byteAt_bannerOverride _ _ h hk]
  rw [hbytes]
  cases hp : ov.banner.present with
  | false => rw [applyIfPresent_absent hp, stored, hp, if_neg Bool.false_ne_true]
  | true =>
    have hlt : nearest p.bannerMax.toNat ov.banner.value.toInt < 2 ^ (8 * 4) :=
      (nearest_le _ _).trans_lt p.bannerMax.isLt
    rw [applyIfPresent_present hp, writeBanner, memRead_memWrite _ h le_rfl, toNat_clamp_signedValue,
      Nat.mod_eq_of_lt hlt, stored, hp, if_pos rfl]

/-! The bytes 16 and 17 by the fields of the packed word. -/

theorem packedWord_eq (buf : List Byte) :
    memRead buf 16 2 = (byteAt buf 16).toNat + 2 ^ 8 * (byteAt buf 17).toNat := memRead_two buf 16

theorem byte16_low (buf : List Byte) : (byteAt buf 16).toNat % 64 = extract (memRead buf 16 2) 0 6 := by
  rw [extract_eq, packedWord_eq]
  omega

theorem byte16_high (buf : List Byte) : (byteAt buf 16).toNat / 64 = extract (memRead buf 16 2) 6 6 % 4 := by
  rw [extract_eq, packedWord_eq]
  omega

theorem byte17_low (buf : List Byte) : (byteAt buf 17).toNat % 16 = extract (memRead buf 16 2) 6 6 / 4 := by
  rw [extract_eq, packedWord_eq]
  omega

theorem byte17_high (buf : List Byte) : (byteAt buf 17).toNat / 16 = extract (memRead buf 16 2) 12 4 := by
  rw [extract_eq, packedWord_eq]
  omega

/-- The statements' spelling of a byte is the model's. -/
theorem getD_eq_byteAt (buf : List Byte) (i : Nat) : buf.getD i 0 = byteAt buf i := rfl

theorem apply_stored (f : Nat → Nat) (port : Port Signed64) (hi old : Nat) :
    f (stored port hi old) = if port.present then f (nearest hi port.value.toInt) else f old :=
  apply_ite f _ _ _

/-- Settles O44: each part of the two bytes is a part of one field of the packed word. -/
theorem crWriteAgeAndHairColorInBytes : Obligations.CrWriteAgeAndHairColorInBytes := by
  intro template ov s hlen hname
  refine ⟨_, exec_crWrite_of_le hlen ov s, ?_⟩
  rw [newBuffer_of_name_absent _ template hname]
  simp only [getD_eq_byteAt]
  refine ⟨?hairColor, ?ageLow, ?ageHigh, ?rest⟩
  case hairColor => rw [byte16_low, byte16_low, writeFixed_hairColor _ _ (by omega)]
  case ageLow => rw [byte16_high, byte16_high, writeFixed_age _ _ (by omega), apply_stored (· % 4)]
  case ageHigh => rw [byte17_low, byte17_low, writeFixed_age _ _ (by omega), apply_stored (· / 4)]
  case rest => rw [byte17_high, byte17_high, writeFixed_packedRest _ _ (by omega)]

end Sys2Proof.Machine

/-! PROOFS. The two name orders (R175): every override decides each bit from the same bit before it, so a bit that the
name does not write comes out the same before and after it. -/

namespace Sys2Proof.Machine

/-- Two buffers of one length, long enough for every override, with the same bit `k` at offset `a`. -/
def AgreeAt (a k : Nat) (out out' : List Byte) : Prop :=
  32 ≤ out.length ∧ out'.length = out.length ∧ bitAt out' a k = bitAt out a k

theorem AgreeAt.applyIfPresent {α : Type} {a k : Nat} {f : α → List Byte → List Byte}
    (hf : ∀ v {out out'}, AgreeAt a k out out' → AgreeAt a k (f v out) (f v out')) (port : Port α)
    {out out' : List Byte} (h : AgreeAt a k out out') :
    AgreeAt a k (applyIfPresent port f out) (applyIfPresent port f out') := by
  cases hp : port.present with
  | false => rwa [applyIfPresent_absent hp, applyIfPresent_absent hp]
  | true =>
    rw [applyIfPresent_present hp, applyIfPresent_present hp]
    exact hf _ h

theorem AgreeAt.writeByteField {a k off : Nat} (hoff : off < 32) (hi : BitVec 8) (v : Signed64) {out out' : List Byte}
    (h : AgreeAt a k out out') : AgreeAt a k (writeByteField off hi v out) (writeByteField off hi v out') := by
  obtain ⟨hlen, hlen', hbit⟩ := h
  refine ⟨by simpa, by simpa, ?_⟩
  rw [bitAt, byteAt_writeByteField _ _ _ _ _ (by omega), bitAt, byteAt_writeByteField _ _ _ _ _ (by omega)]
  split
  · rfl
  · exact hbit

theorem AgreeAt.writeBanner {a k : Nat} (hi : BitVec 32) (v : Signed64) {out out' : List Byte}
    (h : AgreeAt a k out out') : AgreeAt a k (writeBanner hi v out) (writeBanner hi v out') := by
  obtain ⟨hlen, hlen', hbit⟩ := h
  refine ⟨by simpa, by simpa, ?_⟩
  rw [bitAt, byteAt_writeBanner _ _ _ _ (by omega), bitAt, byteAt_writeBanner _ _ _ _ (by omega)]
  split
  · rfl
  · exact hbit

theorem AgreeAt.writeAppearance {a k : Nat} (bytes : Vector Byte 11) {out out' : List Byte}
    (h : AgreeAt a k out out') : AgreeAt a k (writeAppearance bytes out) (writeAppearance bytes out') := by
  obtain ⟨hlen, hlen', hbit⟩ := h
  refine ⟨by simpa, by simpa, ?_⟩
  rw [bitAt, byteAt_writeAppearance _ _ _ (by omega), bitAt, byteAt_writeAppearance _ _ _ (by omega)]
  split
  · rfl
  · exact hbit

theorem bitAt_writePackedField {off wid i k : Nat} (v : Signed64) {out : List Byte} (hlen : 18 ≤ out.length)
    (hi : i < 2) (hk : k < 8) : bitAt (writePackedField off wid v out) (16 + i) k =
      (insert 16 (memRead out 16 2) off wid (signedValue v)).testBit (8 * i + k) :=
  getLsbD_byteAt_memWrite _ hlen hi hk

theorem AgreeAt.writePackedField {a k : Nat} (off wid : Nat) (v : Signed64) {out out' : List Byte}
    (h : AgreeAt a k out out') : AgreeAt a k (writePackedField off wid v out) (writePackedField off wid v out') := by
  obtain ⟨hlen, hlen', hbit⟩ := h
  refine ⟨by simpa, by simpa, ?_⟩
  rcases Nat.lt_or_ge k 8 with hk | hk
  · by_cases hword : 16 ≤ a ∧ a < 18
    · obtain ⟨i, hi, rfl⟩ : ∃ i < 2, a = 16 + i := ⟨a - 16, by omega⟩
      rw [bitAt, bitAt] at hbit
      rw [bitAt_writePackedField v (by omega) hi hk, bitAt_writePackedField v (by omega) hi hk, testBit_insert,
        testBit_insert, testBit_memRead _ _ hi hk, testBit_memRead _ _ hi hk, hbit]
    · rw [bitAt, byteAt_writePackedField_outside _ _ _ _ (by omega), bitAt,
        byteAt_writePackedField_outside _ _ _ _ (by omega)]
      exact hbit
  · rw [bitAt_of_ge _ _ hk, bitAt_of_ge _ _ hk]

theorem AgreeAt.writeFixed {a k : Nat} (p : Params) (ov : Overrides) {out out' : List Byte} (h : AgreeAt a k out out') :
    AgreeAt a k (writeFixed p ov out) (writeFixed p ov out') := by
  have hsex := AgreeAt.applyIfPresent (AgreeAt.writeByteField (off := 5) (by decide) p.sexMax) ov.sex h
  have hbanner := hsex.applyIfPresent (AgreeAt.writeBanner p.bannerMax) ov.banner
  have hhairstyle :=
    hbanner.applyIfPresent (AgreeAt.writeByteField (off := 13) (by decide) p.hairstyleMax) ov.hairstyle
  have hskin := hhairstyle.applyIfPresent (AgreeAt.writeByteField (off := 14) (by decide) p.skinMax) ov.skin
  have hcolor := hskin.applyIfPresent (AgreeAt.writePackedField 0 6) ov.hairColor
  have hage := hcolor.applyIfPresent (AgreeAt.writePackedField 6 6) ov.age
  exact hage.applyIfPresent AgreeAt.writeAppearance ov.appearance

/-! The new buffer under each setting. -/

theorem params_eq_paramsWith : Config.params = paramsWith Config.wrNameOrder := rfl

/-- The fixed overrides do not depend on the name order. -/
theorem writeFixed_paramsWith (order order' : NameOrder) (ov : Overrides) (out : List Byte) :
    writeFixed (paramsWith order) ov out = writeFixed (paramsWith order') ov out := rfl

/-- With NAME_FIRST the fixed overrides are written over the name. -/
theorem newBuffer_first (template : List Byte) (ov : Overrides) :
    newBuffer (paramsWith .nameFirst) template ov =
      writeFixed (paramsWith .nameFirst) ov (applyIfPresent ov.name writeName template) := by
  cases hname : ov.name.present with
  | false => rw [newBuffer_of_name_absent _ _ hname, applyIfPresent_absent hname]
  | true => rw [newBuffer_of_nameFirst template hname rfl, applyIfPresent_present hname]

/-- With NAME_LAST the name is written over the fixed overrides. -/
theorem newBuffer_last (template : List Byte) (ov : Overrides) :
    newBuffer (paramsWith .nameLast) template ov =
      applyIfPresent ov.name writeName (writeFixed (paramsWith .nameLast) ov template) := by
  cases hname : ov.name.present with
  | false => rw [newBuffer_of_name_absent _ _ hname, applyIfPresent_absent hname]
  | true => rw [newBuffer_of_nameLast template hname rfl, applyIfPresent_present hname]

/-- The name override, present or absent, changes nothing outside byte 0 and the bytes it writes. -/
theorem byteAt_nameOverride_outside {ov : Overrides} {template out : List Byte} {a : Nat}
    (hlen : 4 ≤ out.length) (hlength : out.length = template.length) (hzero : a ≠ 0)
    (h : a < 4 ∨ 4 + writtenName template ov ≤ a) :
    byteAt (applyIfPresent ov.name writeName out) a = byteAt out a := by
  refine applyIfPresent_observe (byteAt · a) fun hname => ?_
  rw [writtenName_of_present template hname, ← hlength] at h
  exact byteAt_writeName_outside hlen hzero h

theorem bitAt_first_eq_last {template : List Byte} {ov : Overrides} {a k : Nat} (hlen : 89 ≤ template.length)
    (hname : ov.name.present = true) (h : ¬ writesBit template (withoutName ov) a k) :
    bitAt (newBuffer (paramsWith .nameFirst) template ov) a k =
      bitAt (newBuffer (paramsWith .nameLast) template ov) a k := by
  rw [bitAt_newBuffer_named _ hlen hname h, bitAt_newBuffer_named _ hlen hname h]

/-- No fixed override writes byte 0. -/
theorem not_writesBit_withoutName_zero (template : List Byte) (ov : Overrides) (k : Nat) :
    ¬ writesBit template (withoutName ov) 0 k := by
  simp [writesBit, withoutName]

/-- Outside the name's bytes the settings agree, in byte 0 too (R175). -/
theorem byteAt_first_eq_last {template : List Byte} {ov : Overrides} {a : Nat} (hlen : 89 ≤ template.length)
    (h : a < 4 ∨ 4 + writtenName template ov ≤ a) :
    byteAt (newBuffer (paramsWith .nameFirst) template ov) a =
      byteAt (newBuffer (paramsWith .nameLast) template ov) a := by
  cases hname : ov.name.present with
  | false =>
    rw [newBuffer_of_name_absent _ _ hname, newBuffer_of_name_absent _ _ hname,
      writeFixed_paramsWith .nameFirst .nameLast]
  | true =>
    refine byteAt_eq_of_bitAt_eq fun k => ?_
    rcases Nat.eq_zero_or_pos a with rfl | hpos
    · exact bitAt_first_eq_last hlen hname (not_writesBit_withoutName_zero template ov k)
    · have hbase : byteAt (applyIfPresent ov.name writeName template) a = byteAt template a :=
        byteAt_nameOverride_outside (by omega) rfl hpos.ne' h
      have hlast := byteAt_nameOverride_outside (out := writeFixed (paramsWith .nameLast) ov template)
        (by rw [length_writeFixed]; omega) (length_writeFixed _ _ _) hpos.ne' h
      have hagree : AgreeAt a k template (applyIfPresent ov.name writeName template) :=
        ⟨by omega, length_applyIfPresent _ _ length_writeName _, bitAt_congr hbase k⟩
      obtain ⟨-, -, hfirst⟩ := hagree.writeFixed (paramsWith .nameFirst) ov
      rw [newBuffer_first, newBuffer_last, hfirst, bitAt_congr hlast, writeFixed_paramsWith .nameFirst .nameLast]

theorem name_present_of_lt {template : List Byte} {ov : Overrides} {j : Nat} (h : j < writtenName template ov) :
    ov.name.present = true := by
  by_contra habsent
  rw [writtenName, if_neg habsent] at h
  omega

/-- Where a request is not contested, no fixed override writes into the name (R175). -/
theorem not_writesBit_of_uncontested {template : List Byte} {ov : Overrides} {a k : Nat}
    (hname : ov.name.present = true) (h : contested template ov = false)
    (ha : 4 ≤ a ∧ a < 4 + writtenName template ov) : ¬ writesBit template (withoutName ov) a k := by
  rw [writtenName_of_present template hname] at ha
  simp only [contested, hname, nameCovers, Bool.true_and, Bool.or_eq_false_iff, Bool.and_eq_false_imp,
    decide_eq_true_eq, decide_eq_false_iff_not] at h
  obtain ⟨⟨⟨⟨⟨⟨hsex, hbanner⟩, hhairstyle⟩, hskin⟩, hcolor⟩, hage⟩, happearance⟩ := h
  rintro (⟨hp, -⟩ | ⟨hp, hin⟩ | ⟨hp, hin⟩ | ⟨hp, hin⟩ | ⟨hp, hin⟩ | ⟨hp, hin⟩ | ⟨hp, hin⟩ | ⟨hp, hin⟩)
  · cases hp
  · have := hsex hp; omega
  · have := hbanner hp; omega
  · have := hhairstyle hp; omega
  · have := hskin hp; omega
  · have := hcolor hp; omega
  · have := hage hp; omega
  · have := happearance hp; omega

/-- An uncontested request gets one buffer under both settings. -/
theorem first_eq_last_of_uncontested {template : List Byte} {ov : Overrides} (hlen : 89 ≤ template.length)
    (h : contested template ov = false) :
    newBuffer (paramsWith .nameFirst) template ov = newBuffer (paramsWith .nameLast) template ov := by
  refine eq_of_bitAt_eq (by simp) fun a k => ?_
  by_cases ha : a < 4 ∨ 4 + writtenName template ov ≤ a
  · exact bitAt_congr (byteAt_first_eq_last hlen ha) k
  · have hname : ov.name.present = true := name_present_of_lt (template := template) (j := a - 4) (by omega)
    exact bitAt_first_eq_last hlen hname (not_writesBit_of_uncontested hname h (by omega))

theorem byteAt_last_name {template : List Byte} {ov : Overrides} {j : Nat} (hlen : 89 ≤ template.length)
    (hj : j < writtenName template ov) :
    byteAt (newBuffer (paramsWith .nameLast) template ov) (4 + j) = byteAt ov.name.value j := by
  have hname := name_present_of_lt hj
  rw [writtenName_of_present template hname] at hj
  rw [newBuffer_of_nameLast template hname rfl]
  exact byteAt_writeName_inside _ (by rw [length_writeFixed]; omega) (by rwa [length_writeFixed])

/-- With NAME_FIRST the name keeps every bit that no fixed override writes. -/
theorem bitAt_first_name {template : List Byte} {ov : Overrides} {j k : Nat} (hlen : 89 ≤ template.length)
    (hj : j < writtenName template ov) (h : ¬ writesBit template (withoutName ov) (4 + j) k) :
    bitAt (newBuffer (paramsWith .nameFirst) template ov) (4 + j) k = bitAt ov.name.value j k := by
  have hname := name_present_of_lt hj
  rw [bitAt_first_eq_last hlen hname h]
  exact bitAt_congr (byteAt_last_name hlen hj) k

theorem newBuffer_count_toNat (p : Params) {template : List Byte} {ov : Overrides} (hlen : 89 ≤ template.length)
    (hname : ov.name.present = true) (hfits : nameFits ov.name.value = true) :
    (byteAt (newBuffer p template ov) 0).toNat = writtenName template ov := by
  rw [newBuffer_count p hlen hname, BitVec.toNat_ofNat, Nat.mod_eq_of_lt (fittingName_lt hfits _),
    writtenName_of_present template hname]

theorem stored_of_present {port : Port Signed64} (h : port.present = true) (hi old : Nat) :
    stored port hi old = nearest hi port.value.toInt := if_pos h

/-- Settles O47: with NAME_FIRST the fixed overrides are the last to write, so their fields stand; with NAME_LAST the
name is; and the machine's setting is one of the two. -/
theorem crWriteUnderBothNameOrders : Obligations.CrWriteUnderBothNameOrders := by
  intro template ov hlen
  have hbase : 89 ≤ (applyIfPresent ov.name writeName template).length := by
    rwa [length_applyIfPresent _ _ length_writeName]
  refine ⟨_, _, writeRecord_of_le _ hlen ov, writeRecord_of_le _ hlen ov, ?setting,
    first_eq_last_of_uncontested hlen, fun _ => byteAt_first_eq_last hlen,
    fun hname hfits => ⟨newBuffer_count_toNat _ hlen hname hfits, newBuffer_count_toNat _ hlen hname hfits⟩,
    fun hp => ?sex, fun hp => ?hairstyle, fun hp => ?skin, fun hp => ?banner, fun hp => ?hairColor, fun hp => ?age,
    fun hp j hj => ?appearance, fun _ _ => byteAt_last_name hlen, fun _ _ => bitAt_first_name hlen⟩
  case setting =>
    have hexec := exec_crWrite_of_le hlen ov
    rw [params_eq_paramsWith] at hexec
    cases horder : Config.wrNameOrder with
    | nameFirst =>
      rw [horder] at hexec
      exact .inl hexec
    | nameLast =>
      rw [horder] at hexec
      exact .inr hexec
  all_goals rw [newBuffer_first]
  case sex => exact (writeFixed_sex _ ov (by omega)).trans (stored_of_present hp _ _)
  case hairstyle => exact (writeFixed_hairstyle _ ov (by omega)).trans (stored_of_present hp _ _)
  case skin => exact (writeFixed_skin _ ov (by omega)).trans (stored_of_present hp _ _)
  case banner => exact (writeFixed_bannerWord _ ov (by omega)).trans (stored_of_present hp _ _)
  case hairColor => exact (writeFixed_hairColor _ ov (by omega)).trans (stored_of_present hp _ _)
  case age => exact (writeFixed_age _ ov (by omega)).trans (stored_of_present hp _ _)
  case appearance => exact (writeFixed_appearance _ ov (by omega) hj).trans (if_pos hp)

end Sys2Proof.Machine

/-! PROOFS. Reading back what was written (R180). An uncontested request may be taken with its name written first, so
that every fixed-offset field reads as the fixed overrides left it over the named template. -/

namespace Sys2Proof.Machine

/-- The machine's new buffer for an uncontested request, whatever its name order is. -/
theorem newBuffer_of_uncontested {template : List Byte} {ov : Overrides} (hlen : 89 ≤ template.length)
    (h : contested template ov = false) (order : NameOrder) :
    newBuffer Config.params template ov = newBuffer (paramsWith order) template ov := by
  have heq := first_eq_last_of_uncontested hlen h
  rw [params_eq_paramsWith]
  cases Config.wrNameOrder <;> cases order
  · rfl
  · exact heq
  · exact heq.symm
  · rfl

/-- A present override stores its value whatever stood in the field. -/
theorem stored_congr {port : Port Signed64} {old old' : Nat} (hi : Nat) (h : port.present = true ∨ old = old') :
    stored port hi old = stored port hi old' := by
  rcases h with hpresent | rfl
  · rw [stored_of_present hpresent, stored_of_present hpresent]
  · rfl

theorem recordOf_hairColor_toNat (buf : List Byte) :
    (recordOf buf).hairColor.toNat = extract (memRead buf 16 2) 0 6 := toNat_ofNat_extract_six _ 0

theorem recordOf_age_toNat (buf : List Byte) : (recordOf buf).age.toNat = extract (memRead buf 16 2) 6 6 :=
  toNat_ofNat_extract_six _ 6

theorem recordOf_name_byteAt {buf : List Byte} {j : Nat} (hj : j < (recordOf buf).nlen) :
    byteAt (recordOf buf).name j = byteAt buf (4 + j) := byteAt_slice buf 4 hj

theorem recordOf_appearance_byteAt (buf : List Byte) {j : Nat} (hj : j < 11) :
    byteAt (recordOf buf).appearance.toList j = byteAt buf (21 + j) := getD_tabulate _ _ hj

/-- Two appearances with the same bytes are equal. -/
theorem appearance_eq {x y : Vector Byte 11} (h : ∀ j < 11, byteAt x.toList j = byteAt y.toList j) : x = y := by
  refine Vector.toList_inj.mp (eq_of_byteAt_eq ?_ fun j hj => h j ?_)
  · rw [Vector.length_toList, Vector.length_toList]
  · rwa [Vector.length_toList] at hj

/-- The written name reads back (R174, R180). -/
theorem recordOf_written_name {template : List Byte} {ov : Overrides} (hlen : 89 ≤ template.length)
    (hname : ov.name.present = true) (hfits : nameFits ov.name.value = true) :
    let r := recordOf (newBuffer (paramsWith .nameLast) template ov)
    r.nlen = writtenName template ov ∧ r.nameLength.toNat = r.nlen ∧ r.name = ov.name.value.take r.nlen := by
  intro r
  have hcount : r.nameLength.toNat = writtenName template ov := newBuffer_count_toNat _ hlen hname hfits
  have hle : writtenName template ov ≤ ov.name.value.length ∧ writtenName template ov ≤ template.length - 4 := by
    rw [writtenName_of_present template hname, fittingName]
    omega
  have hnlen : r.nlen = writtenName template ov := by
    have hfitting : r.nlen = fittingName r.nameLength.toNat template.length :=
      congrArg (fittingName _) (length_newBuffer _ _ _)
    rw [hfitting, hcount, fittingName, Nat.min_eq_left hle.2]
  refine ⟨hnlen, hcount.trans hnlen.symm, eq_of_byteAt_eq ?_ fun j hj => ?_⟩
  · rw [length_recordOf_name, List.length_take, hnlen, Nat.min_eq_left hle.1]
  · rw [length_recordOf_name] at hj
    have htake : byteAt (ov.name.value.take r.nlen) j = byteAt ov.name.value (0 + j) := byteAt_slice ov.name.value 0 hj
    rw [recordOf_name_byteAt hj, byteAt_last_name hlen (hnlen ▸ hj), htake, Nat.zero_add]

/-- With no name override the name reads as in the template, but for the bits that another override writes. -/
theorem recordOf_absent_name (p : Params) {template : List Byte} {ov : Overrides} (hlen : 89 ≤ template.length)
    (hname : ov.name.present = false) :
    let r := recordOf (newBuffer p template ov)
    let old := recordOf template
    r.nameLength = old.nameLength ∧ r.nlen = old.nlen ∧ r.name.length = old.name.length ∧
      ∀ j k, j < r.nlen → ¬ writesBit template ov (4 + j) k →
        (r.name.getD j 0).getLsbD k = (old.name.getD j 0).getLsbD k := by
  intro r old
  have hcount : r.nameLength = old.nameLength :=
    byteAt_eq_of_bitAt_eq (a := 0) fun k => bitAt_newBuffer p hlen (by simp [writesBit, hname])
  have hnlen : r.nlen = old.nlen :=
    congrArg₂ (fun (count : Byte) len => fittingName count.toNat len) hcount (length_newBuffer _ _ _)
  refine ⟨hcount, hnlen, by rw [length_recordOf_name, length_recordOf_name, hnlen], fun j k hj hbit => ?_⟩
  rw [getD_eq_byteAt, getD_eq_byteAt, recordOf_name_byteAt hj, recordOf_name_byteAt (hnlen ▸ hj)]
  exact bitAt_newBuffer p hlen hbit

/-- Settles O48: the name by the setting that writes it last; each fixed-offset field by the setting that writes the
name first, over a template whose bytes beyond the name are unchanged. -/
theorem readAfterWriteGivesTheOverrides : Obligations.ReadAfterWriteGivesTheOverrides := by
  intro template ov s t hlen hfits huncontested
  have hread : 89 ≤ (newBuffer Config.params template ov).length := by rwa [length_newBuffer]
  refine ⟨_, _, _, exec_crWrite_of_le hlen ov s, exec_crRead_of_le hread t, exec_crRead_of_le hlen t,
    fun hname => ?name, fun hname => recordOf_absent_name _ hlen hname, ?_⟩
  case name =>
    rw [newBuffer_of_uncontested hlen huncontested .nameLast]
    exact recordOf_written_name hlen hname hfits
  rw [newBuffer_of_uncontested hlen huncontested .nameFirst, newBuffer_first]
  have hbase : 89 ≤ (applyIfPresent ov.name writeName template).length := by
    rwa [length_applyIfPresent _ _ length_writeName]
  have houtside {a : Nat} (ha : 4 + writtenName template ov ≤ a) :
      byteAt (applyIfPresent ov.name writeName template) a = byteAt template a :=
    byteAt_nameOverride_outside (by omega) rfl (by omega) (.inr ha)
  have hbyte {port : Port Signed64} {hi a : Nat} (h : 4 + writtenName template ov ≤ a ∨ port.present = true) :
      stored port hi (byteAt (applyIfPresent ov.name writeName template) a).toNat =
        stored port hi (byteAt template a).toNat :=
    stored_congr hi (h.symm.imp_right fun ha => congrArg BitVec.toNat (houtside ha))
  have hword {port : Port Signed64} {hi off n : Nat} (f : Nat → Nat)
      (h : 4 + writtenName template ov ≤ off ∨ port.present = true) :
      stored port hi (f (memRead (applyIfPresent ov.name writeName template) off n)) =
        stored port hi (f (memRead template off n)) :=
    stored_congr hi (h.symm.imp_right fun hoff => congrArg f (memRead_congr fun k _ => houtside (by omega)))
  rw [recordOf_banner_toNat, recordOf_banner_toNat, recordOf_hairColor_toNat, recordOf_hairColor_toNat,
    recordOf_age_toNat, recordOf_age_toNat]
  refine ⟨fun h => ?sex, fun h => ?banner, fun h => ?hairstyle, fun h => ?skin, fun h => ?hairColor, fun h => ?age,
    fun h => ?appearance, fun h habsent => ?oldAppearance⟩
  case sex => exact (writeFixed_sex _ ov (by omega)).trans (hbyte (h.imp_left (by omega)))
  case hairstyle => exact (writeFixed_hairstyle _ ov (by omega)).trans (hbyte (h.imp_left (by omega)))
  case skin => exact (writeFixed_skin _ ov (by omega)).trans (hbyte (h.imp_left (by omega)))
  case banner => exact (writeFixed_bannerWord _ ov (by omega)).trans (hword id (h.imp_left (by omega)))
  case hairColor =>
    exact (writeFixed_hairColor _ ov (by omega)).trans (hword (extract · 0 6) (h.imp_left (by omega)))
  case age => exact (writeFixed_age _ ov (by omega)).trans (hword (extract · 6 6) (h.imp_left (by omega)))
  case appearance =>
    refine appearance_eq fun j hj => ?_
    rw [recordOf_appearance_byteAt _ hj, writeFixed_appearance _ ov (by omega) hj, if_pos h]
  case oldAppearance =>
    refine appearance_eq fun j hj => ?_
    rw [recordOf_appearance_byteAt _ hj, recordOf_appearance_byteAt _ hj, writeFixed_appearance _ ov (by omega) hj,
      habsent, if_neg Bool.false_ne_true, houtside (by omega)]

end Sys2Proof.Machine

/-! PROOFS. Writing back what was read (R182): every override writes the bytes that stand there already. -/

namespace Sys2Proof.Machine

/-- Writing a number over the bytes it was read from changes nothing. -/
theorem memWrite_memRead {buf : List Byte} {off n : Nat} (h : off + n ≤ buf.length) :
    memWrite buf off n (memRead buf off n) = buf := by
  refine eq_of_bitAt_eq (length_memWrite _ _ _ _) fun a k => ?_
  rcases Nat.lt_or_ge k 8 with hk | hk
  · by_cases hin : off ≤ a ∧ a < off + n
    · obtain ⟨i, rfl⟩ := Nat.exists_eq_add_of_le hin.1
      have hi : i < n := by omega
      exact (getLsbD_byteAt_memWrite _ h hi hk).trans (testBit_memRead buf off hi hk)
    · exact bitAt_congr (byteAt_memWrite_outside _ h (by omega)) k
  · rw [bitAt_of_ge _ _ hk, bitAt_of_ge _ _ hk]

/-- Replacing a field by its own value changes nothing. -/
theorem insert_extract {width w off wid : Nat} (hw : w < 2 ^ width) (hend : off + wid ≤ width) :
    insert width w off wid (extract w off wid) = w := by
  have hfield : extract (insert width w off wid (extract w off wid)) off wid = extract w off wid := by
    have hfits : (extract w off wid : Int) ≤ (2 ^ wid - 1 : Nat) := by
      exact_mod_cast Nat.le_sub_one_of_lt (extract_lt w off wid)
    rw [extract_insert _ _ hend]
    exact_mod_cast nearest_of_mem (Int.natCast_nonneg _) hfits
  refine Nat.eq_of_testBit_eq fun k => ?_
  by_cases hin : off ≤ k ∧ k < off + wid
  · obtain ⟨j, rfl⟩ := Nat.exists_eq_add_of_le hin.1
    have hbit := congrArg (Nat.testBit · j) hfield
    simpa [testBit_extract, show j < wid by omega] using hbit
  · exact testBit_insert_outside _ hw (by omega)

theorem toInt_asInput {w : Nat} (hw : w < 64) (v : BitVec w) : (asInput v).value.toInt = v.toNat :=
  presented_asInput hw v

/-- A delivered number is in its range, so presenting it again clamps nothing. -/
theorem clamp_asInput {w hi : Nat} (hw : w < 64) {v : BitVec w} (hle : v.toNat ≤ hi) :
    (clamp (signedValue (asInput v).value) 0 hi).toNat = v.toNat := by
  rw [signedValue_eq_toInt, toInt_asInput hw, clamp_of_mem (Int.natCast_nonneg _) (Int.ofNat_le.mpr hle),
    Int.toNat_natCast]

theorem writeByteField_read {buf : List Byte} {off : Nat} (h : off < buf.length) :
    writeByteField off 255 (asInput (byteAt buf off)).value buf = buf := by
  have hle : (byteAt buf off).toNat ≤ (255 : BitVec 8).toNat := Nat.le_of_lt_succ (byteAt buf off).isLt
  rw [writeByteField, clamp_asInput (by decide) hle, ← memRead_one, memWrite_memRead h]

theorem writeBanner_read {buf : List Byte} (h : 13 ≤ buf.length) :
    writeBanner 0xFFFFFFFF (asInput (recordOf buf).banner).value buf = buf := by
  have hle : (recordOf buf).banner.toNat ≤ (0xFFFFFFFF : BitVec 32).toNat :=
    Nat.le_of_lt_succ (recordOf buf).banner.isLt
  rw [writeBanner, clamp_asInput (by decide) hle, recordOf_banner_toNat, memWrite_memRead h]

theorem writePackedField_read {buf : List Byte} {off : Nat} {v : BitVec 6} (h : 18 ≤ buf.length) (hoff : off + 6 ≤ 16)
    (hv : v.toNat = extract (memRead buf 16 2) off 6) : writePackedField off 6 (asInput v).value buf = buf := by
  rw [writePackedField, signedValue_eq_toInt, toInt_asInput (by decide), hv,
    insert_extract (memRead_lt buf 16 2) hoff, memWrite_memRead h]

theorem writeAppearance_read {buf : List Byte} (h : 32 ≤ buf.length) :
    writeAppearance (recordOf buf).appearance buf = buf := by
  refine eq_of_byteAt_eq (length_writeAppearance _ _) fun a _ => ?_
  rw [byteAt_writeAppearance _ _ _ h]
  split
  next hin =>
    obtain ⟨j, rfl⟩ := Nat.exists_eq_add_of_le hin.1
    rw [Nat.add_sub_cancel_left, recordOf_appearance_byteAt _ (by omega)]
  next => rfl

/-- The name as read is written back where its count is that of bytes which exist. -/
theorem writeName_read {buf : List Byte} (hlen : 4 ≤ buf.length)
    (hfits : (recordOf buf).nameLength.toNat ≤ buf.length - 4) : writeName (recordOf buf).name buf = buf := by
  have hnlen : (recordOf buf).nlen = (byteAt buf 0).toNat := Nat.min_eq_left hfits
  have hcount : fittingName (recordOf buf).name.length buf.length = (byteAt buf 0).toNat := by
    rw [length_recordOf_name, hnlen]
    exact Nat.min_eq_left hfits
  refine eq_of_byteAt_eq (length_writeName _ _) fun a _ => ?_
  rcases Nat.eq_zero_or_pos a with rfl | hpos
  · rw [byteAt_writeName_count _ hlen, hcount, BitVec.ofNat_toNat, BitVec.setWidth_eq]
  · by_cases hin : 4 ≤ a ∧ a < 4 + (byteAt buf 0).toNat
    · obtain ⟨j, rfl⟩ := Nat.exists_eq_add_of_le hin.1
      rw [byteAt_writeName_inside _ hlen (by omega), recordOf_name_byteAt (by omega)]
    · exact byteAt_writeName_outside hlen hpos.ne' (by omega)

/-- The overrides that present every field of a record, the name where asked for. -/
def readBack (r : CharacterRecord) (withName : Bool) : Overrides where
  name := ⟨withName, r.name⟩
  sex := asInput r.sex
  banner := asInput r.banner
  hairstyle := asInput r.hairstyle
  skin := asInput r.skin
  age := asInput r.age
  hairColor := asInput r.hairColor
  appearance := ⟨true, r.appearance⟩

theorem writeFixed_readBack {buf : List Byte} (hlen : 89 ≤ buf.length) (order : NameOrder) (withName : Bool) :
    writeFixed (paramsWith order) (readBack (recordOf buf) withName) buf = buf := by
  have hsex : writeByteField 5 255 (asInput (recordOf buf).sex).value buf = buf := writeByteField_read (by omega)
  have hbanner : writeBanner 0xFFFFFFFF (asInput (recordOf buf).banner).value buf = buf := writeBanner_read (by omega)
  have hhairstyle : writeByteField 13 255 (asInput (recordOf buf).hairstyle).value buf = buf :=
    writeByteField_read (by omega)
  have hskin : writeByteField 14 255 (asInput (recordOf buf).skin).value buf = buf := writeByteField_read (by omega)
  have hcolor : writePackedField 0 6 (asInput (recordOf buf).hairColor).value buf = buf :=
    writePackedField_read (by omega) (by decide) (recordOf_hairColor_toNat buf)
  have hage : writePackedField 6 6 (asInput (recordOf buf).age).value buf = buf :=
    writePackedField_read (by omega) (by decide) (recordOf_age_toNat buf)
  have happearance : writeAppearance (recordOf buf).appearance buf = buf := writeAppearance_read (by omega)
  calc writeFixed (paramsWith order) (readBack (recordOf buf) withName) buf
    _ = writeAppearance (recordOf buf).appearance (writePackedField 6 6 (asInput (recordOf buf).age).value
        (writePackedField 0 6 (asInput (recordOf buf).hairColor).value
        (writeByteField 14 255 (asInput (recordOf buf).skin).value
        (writeByteField 13 255 (asInput (recordOf buf).hairstyle).value
        (writeBanner 0xFFFFFFFF (asInput (recordOf buf).banner).value
        (writeByteField 5 255 (asInput (recordOf buf).sex).value buf)))))) := rfl
    _ = buf := by rw [hsex, hbanner, hhairstyle, hskin, hcolor, hage, happearance]

theorem newBuffer_readBack {buf : List Byte} {withName : Bool} (hlen : 89 ≤ buf.length)
    (hfits : withName = true → (recordOf buf).nameLength.toNat ≤ buf.length - 4) (order : NameOrder) :
    newBuffer (paramsWith order) buf (readBack (recordOf buf) withName) = buf := by
  have hfixed := writeFixed_readBack hlen order withName
  have hname : applyIfPresent (readBack (recordOf buf) withName).name writeName buf = buf :=
    applyIfPresent_observe id fun hpresent => writeName_read (by omega) (hfits hpresent)
  cases order with
  | nameFirst => rw [newBuffer_first, hname, hfixed]
  | nameLast => rw [newBuffer_last, hfixed, hname]

/-- Settles O49: no override of the record as read changes the buffer, so neither does their sequence in either
order. -/
theorem writingWhatWasReadChangesNothing : Obligations.WritingWhatWasReadChangesNothing := by
  intro buf s withName hlen
  refine ⟨_, exec_crRead_of_le hlen s, fun hfits => ?_⟩
  have hsame := newBuffer_readBack hlen hfits
  refine ⟨(exec_crWrite_of_le hlen _ s).trans ?_, fun order => (writeRecord_of_le _ hlen _).trans ?_⟩
  · exact congrArg (fun b => Host.Outcome.next (deliver (.ok (.crWrite b)) s)) (hsame Config.wrNameOrder)
  · exact congrArg Except.ok (hsame order)

end Sys2Proof.Machine
